-- ==== Sys2Proof/Word.lean ====
section
/-! DEFINITION. The widths of the machine's values (00_scope.md R7, R8): all unsigned, bit 0 the least significant. -/

namespace Sys2Proof

/-- An 8-bit value: a V register, a timer, a memory cell (10_state.md R20, R29, R33). -/
abbrev Byte := BitVec 8

/-- A 16-bit value: an instruction word, PC, I, a stack slot (10_state.md R24, R28, R30). -/
abbrev Word := BitVec 16

/-- A 4-bit field: a register index X or Y, a count N, a logical key (30_encoding.md R72). -/
abbrev Nibble := BitVec 4

/-- The 12-bit immediate NNN (30_encoding.md R72). -/
abbrev Imm12 := BitVec 12

/-- `{hi, lo}`: the 16-bit word of two bytes, the first in bits 15:8 (20_memory.md R52). -/
def joinBytes (hi lo : Byte) : Word := hi ++ lo

end Sys2Proof
end

