-- ==== Sys2Proof/Syntax.lean ====
section
/-! DEFINITION. The instructions: one constructor per row of the opcode table (30_encoding.md R78, R88).
Every field has the width the decoder gives it (R72), so a register index or an immediate out of range cannot be written.
The bits of a word that the decoder extracts and no handler reads (R74, R81) are kept as fields too: a term is exactly a legal word (log 1). -/

namespace Sys2Proof

inductive Instr where
  /-- 00E0, `CLS`; bits 11:8 (`x`) are ignored (R81, R191). -/
  | cls (x : Nibble)
  /-- 00EE, `RET`; bits 11:8 (`x`) are ignored (R81, R131). -/
  | ret (x : Nibble)
  /-- 1NNN, `JP nnn` (R132). -/
  | jp (nnn : Imm12)
  /-- 2NNN, `CALL nnn` (R133). -/
  | call (nnn : Imm12)
  /-- 3XKK, `SE Vx, kk` (R135). -/
  | seImm (x : Nibble) (kk : Byte)
  /-- 4XKK, `SNE Vx, kk` (R136). -/
  | sneImm (x : Nibble) (kk : Byte)
  /-- 5XYN, `SE Vx, Vy`; N is ignored (R81, R137). -/
  | seReg (x y n : Nibble)
  /-- 6XKK, `LD Vx, kk` (R150). -/
  | ldImm (x : Nibble) (kk : Byte)
  /-- 7XKK, `ADD Vx, kk` (R151). -/
  | addImm (x : Nibble) (kk : Byte)
  /-- 8XY0, `LD Vx, Vy` (R153). -/
  | ldReg (x y : Nibble)
  /-- 8XY1, `OR Vx, Vy` (R154). -/
  | orReg (x y : Nibble)
  /-- 8XY2, `AND Vx, Vy` (R155). -/
  | andReg (x y : Nibble)
  /-- 8XY3, `XOR Vx, Vy` (R156). -/
  | xorReg (x y : Nibble)
  /-- 8XY4, `ADD Vx, Vy` (R157). -/
  | addReg (x y : Nibble)
  /-- 8XY5, `SUB Vx, Vy` (R158). -/
  | subReg (x y : Nibble)
  /-- 8XY6, `SHR Vx`; Y is decoded but not read (R159). -/
  | shr (x y : Nibble)
  /-- 8XY7, `SUBN Vx, Vy` (R160). -/
  | subnReg (x y : Nibble)
  /-- 8XYE, `SHL Vx`; Y is decoded but not read (R161). -/
  | shl (x y : Nibble)
  /-- 9XYN, `SNE Vx, Vy`; N is ignored (R81, R138). -/
  | sneReg (x y n : Nibble)
  /-- ANNN, `LD I, nnn` (R180). -/
  | ldI (nnn : Imm12)
  /-- BNNN, `JP V0, nnn` (R134). -/
  | jpV0 (nnn : Imm12)
  /-- CXKK, `RND Vx, kk` (R183). -/
  | rnd (x : Nibble) (kk : Byte)
  /-- DXYN, `DRW Vx, Vy, n` (R192). -/
  | drw (x y n : Nibble)
  /-- EX9E, `SKP Vx` (R210). -/
  | skp (x : Nibble)
  /-- EXA1, `SKNP Vx` (R211). -/
  | sknp (x : Nibble)
  /-- FX07, `LD Vx, DT` (R212). -/
  | ldVxDt (x : Nibble)
  /-- FX0A, `LD Vx, K` (R215). -/
  | ldVxK (x : Nibble)
  /-- FX15, `LD DT, Vx` (R213). -/
  | ldDtVx (x : Nibble)
  /-- FX18, `LD ST, Vx` (R214). -/
  | ldStVx (x : Nibble)
  /-- FX1E, `ADD I, Vx` (R181). -/
  | addIVx (x : Nibble)
  /-- FX29, `LD F, Vx` (R182). -/
  | ldFVx (x : Nibble)
  /-- FX33, `LD B, Vx` (R230). -/
  | ldBVx (x : Nibble)
  /-- FX55, `LD [I], Vx` (R231). -/
  | ldMemVx (x : Nibble)
  /-- FX65, `LD Vx, [I]` (R232). -/
  | ldVxMem (x : Nibble)
  deriving DecidableEq, Repr

end Sys2Proof
end

