-- ==== Sys2Proof/Decode.lean ====
section
/-! DEFINITION. The decoder and the encoder (30_encoding.md R70 to R84), and the dispatch table the rules are given as (R75 to R78). -/

namespace Sys2Proof

/-! ## The fields of a word (R7, R72) -/

/-- `op = w[15:12]`, the top nibble (R71). -/
def opOf (w : Word) : Nibble := w.extractLsb' 12 4

/-- `X = w[11:8]` (R72). -/
def xOf (w : Word) : Nibble := w.extractLsb' 8 4

/-- `Y = w[7:4]` (R72). -/
def yOf (w : Word) : Nibble := w.extractLsb' 4 4

/-- `N = w[3:0]` (R72). -/
def nOf (w : Word) : Nibble := w.extractLsb' 0 4

/-- `NNN = w[11:0]` (R72). -/
def nnnOf (w : Word) : Imm12 := w.extractLsb' 0 12

/-- `KK = w[7:0]` (R72). -/
def kkOf (w : Word) : Byte := w.extractLsb' 0 8

/-! ## Decoding -/

/-- Why a list of bytes is no instruction. -/
inductive Reject where
  /-- Fewer than the two bytes of a word (R70). -/
  | truncated
  /-- The word matches no entry of the dispatch table (R80). -/
  | unrecognizedInstruction (w : Word)
  deriving DecidableEq, Repr

/-- Top nibble 0: the low byte selects (R83). -/
def decodeSystem (w : Word) : Except Reject Instr :=
  match (kkOf w).toNat with
  | 0xE0 => .ok (.cls (xOf w))
  | 0xEE => .ok (.ret (xOf w))
  | _ => .error (.unrecognizedInstruction w)

/-- Top nibble 8: the low nibble selects (R83). -/
def decodeAlu (w : Word) : Except Reject Instr :=
  match (nOf w).toNat with
  | 0x0 => .ok (.ldReg (xOf w) (yOf w))
  | 0x1 => .ok (.orReg (xOf w) (yOf w))
  | 0x2 => .ok (.andReg (xOf w) (yOf w))
  | 0x3 => .ok (.xorReg (xOf w) (yOf w))
  | 0x4 => .ok (.addReg (xOf w) (yOf w))
  | 0x5 => .ok (.subReg (xOf w) (yOf w))
  | 0x6 => .ok (.shr (xOf w) (yOf w))
  | 0x7 => .ok (.subnReg (xOf w) (yOf w))
  | 0xE => .ok (.shl (xOf w) (yOf w))
  | _ => .error (.unrecognizedInstruction w)

/-- Top nibble E: the low byte selects (R83). -/
def decodeKeySkip (w : Word) : Except Reject Instr :=
  match (kkOf w).toNat with
  | 0x9E => .ok (.skp (xOf w))
  | 0xA1 => .ok (.sknp (xOf w))
  | _ => .error (.unrecognizedInstruction w)

/-- Top nibble F: the low byte selects (R83). -/
def decodeMisc (w : Word) : Except Reject Instr :=
  match (kkOf w).toNat with
  | 0x07 => .ok (.ldVxDt (xOf w))
  | 0x0A => .ok (.ldVxK (xOf w))
  | 0x15 => .ok (.ldDtVx (xOf w))
  | 0x18 => .ok (.ldStVx (xOf w))
  | 0x1E => .ok (.addIVx (xOf w))
  | 0x29 => .ok (.ldFVx (xOf w))
  | 0x33 => .ok (.ldBVx (xOf w))
  | 0x55 => .ok (.ldMemVx (xOf w))
  | 0x65 => .ok (.ldVxMem (xOf w))
  | _ => .error (.unrecognizedInstruction w)

/-- The instruction of a 16-bit word, by the opcode map of R83. Total: every word is an instruction or rejected by name (R82). -/
def decode (w : Word) : Except Reject Instr :=
  match (opOf w).toNat with
  | 0x0 => decodeSystem w
  | 0x1 => .ok (.jp (nnnOf w))
  | 0x2 => .ok (.call (nnnOf w))
  | 0x3 => .ok (.seImm (xOf w) (kkOf w))
  | 0x4 => .ok (.sneImm (xOf w) (kkOf w))
  | 0x5 => .ok (.seReg (xOf w) (yOf w) (nOf w))
  | 0x6 => .ok (.ldImm (xOf w) (kkOf w))
  | 0x7 => .ok (.addImm (xOf w) (kkOf w))
  | 0x8 => decodeAlu w
  | 0x9 => .ok (.sneReg (xOf w) (yOf w) (nOf w))
  | 0xA => .ok (.ldI (nnnOf w))
  | 0xB => .ok (.jpV0 (nnnOf w))
  | 0xC => .ok (.rnd (xOf w) (kkOf w))
  | 0xD => .ok (.drw (xOf w) (yOf w) (nOf w))
  | 0xE => decodeKeySkip w
  | _ => decodeMisc w  -- 0xF, the one top nibble left

/-- The first instruction of a list of bytes, big-endian, and the bytes after it (R70, 20_memory.md R52). -/
def decodeBytes : List Byte → Except Reject (Instr × List Byte)
  | hi :: lo :: rest => (decode (joinBytes hi lo)).map (fun i => (i, rest))
  | _ => .error .truncated

/-! ## Encoding -/

/-- Format `oNNN` (R71). -/
def packNNN (op : Nibble) (nnn : Imm12) : Word := op ++ nnn

/-- Formats `oXKK` and `oXFF` (R71); for `oXFF` the byte is the function byte. -/
def packXKK (op x : Nibble) (kk : Byte) : Word := op ++ (x ++ kk)

/-- Format `oXYN` (R71). -/
def packXYN (op x y n : Nibble) : Word := op ++ (x ++ (y ++ n))

/-- The word of an instruction, from the match column and the formats of R71 and R78. -/
def encode : Instr → Word
  | .cls x => packXKK 0x0 x 0xE0
  | .ret x => packXKK 0x0 x 0xEE
  | .jp nnn => packNNN 0x1 nnn
  | .call nnn => packNNN 0x2 nnn
  | .seImm x kk => packXKK 0x3 x kk
  | .sneImm x kk => packXKK 0x4 x kk
  | .seReg x y n => packXYN 0x5 x y n
  | .ldImm x kk => packXKK 0x6 x kk
  | .addImm x kk => packXKK 0x7 x kk
  | .ldReg x y => packXYN 0x8 x y 0x0
  | .orReg x y => packXYN 0x8 x y 0x1
  | .andReg x y => packXYN 0x8 x y 0x2
  | .xorReg x y => packXYN 0x8 x y 0x3
  | .addReg x y => packXYN 0x8 x y 0x4
  | .subReg x y => packXYN 0x8 x y 0x5
  | .shr x y => packXYN 0x8 x y 0x6
  | .subnReg x y => packXYN 0x8 x y 0x7
  | .shl x y => packXYN 0x8 x y 0xE
  | .sneReg x y n => packXYN 0x9 x y n
  | .ldI nnn => packNNN 0xA nnn
  | .jpV0 nnn => packNNN 0xB nnn
  | .rnd x kk => packXKK 0xC x kk
  | .drw x y n => packXYN 0xD x y n
  | .skp x => packXKK 0xE x 0x9E
  | .sknp x => packXKK 0xE x 0xA1
  | .ldVxDt x => packXKK 0xF x 0x07
  | .ldVxK x => packXKK 0xF x 0x0A
  | .ldDtVx x => packXKK 0xF x 0x15
  | .ldStVx x => packXKK 0xF x 0x18
  | .addIVx x => packXKK 0xF x 0x1E
  | .ldFVx x => packXKK 0xF x 0x29
  | .ldBVx x => packXKK 0xF x 0x33
  | .ldMemVx x => packXKK 0xF x 0x55
  | .ldVxMem x => packXKK 0xF x 0x65

/-- The two bytes of an instruction as memory holds them (20_memory.md R52). -/
def encodeBytes (i : Instr) : List Byte :=
  [(encode i).extractLsb' 8 8, (encode i).extractLsb' 0 8]

/-! ## The dispatch table (R75 to R78)

The rules give dispatch as an ordered table. It stands here as data; that `decode` is first-match in it is a statement. -/

/-- How much of a word an entry compares (R75, R77). -/
inductive EntryKind where
  /-- The top nibble alone. -/
  | simple
  /-- The top nibble and the low byte. -/
  | variantByte
  /-- The top nibble and the low nibble. -/
  | variantNibble
  deriving DecidableEq, Repr

/-- One entry: its kind, its 16-bit pattern, and the instruction its handler runs on a word's fields (R75, R87). -/
structure TableEntry where
  kind : EntryKind
  pattern : Word
  build : Word → Instr

/-- The two conditions of R77. -/
def TableEntry.matches (e : TableEntry) (w : Word) : Bool :=
  opOf w == opOf e.pattern &&
    match e.kind with
    | .simple => true
    | .variantByte => kkOf w == kkOf e.pattern
    | .variantNibble => nOf w == nOf e.pattern

/-- The mask of an entry's kind (R77). -/
def TableEntry.mask (e : TableEntry) : Word :=
  match e.kind with
  | .simple => 0xF000
  | .variantByte => 0xF0FF
  | .variantNibble => 0xF00F

/-- The entries with top nibble 0 to 7 (R78). -/
def tableLow : List TableEntry :=
  [ ⟨.variantByte, 0x00E0, fun w => .cls (xOf w)⟩,
    ⟨.variantByte, 0x00EE, fun w => .ret (xOf w)⟩,
    ⟨.simple, 0x1000, fun w => .jp (nnnOf w)⟩,
    ⟨.simple, 0x2000, fun w => .call (nnnOf w)⟩,
    ⟨.simple, 0x3000, fun w => .seImm (xOf w) (kkOf w)⟩,
    ⟨.simple, 0x4000, fun w => .sneImm (xOf w) (kkOf w)⟩,
    ⟨.simple, 0x5000, fun w => .seReg (xOf w) (yOf w) (nOf w)⟩,
    ⟨.simple, 0x6000, fun w => .ldImm (xOf w) (kkOf w)⟩,
    ⟨.simple, 0x7000, fun w => .addImm (xOf w) (kkOf w)⟩ ]

/-- The entries with top nibble 8 (R78). -/
def tableAlu : List TableEntry :=
  [ ⟨.variantNibble, 0x8000, fun w => .ldReg (xOf w) (yOf w)⟩,
    ⟨.variantNibble, 0x8001, fun w => .orReg (xOf w) (yOf w)⟩,
    ⟨.variantNibble, 0x8002, fun w => .andReg (xOf w) (yOf w)⟩,
    ⟨.variantNibble, 0x8003, fun w => .xorReg (xOf w) (yOf w)⟩,
    ⟨.variantNibble, 0x8004, fun w => .addReg (xOf w) (yOf w)⟩,
    ⟨.variantNibble, 0x8005, fun w => .subReg (xOf w) (yOf w)⟩,
    ⟨.variantNibble, 0x8006, fun w => .shr (xOf w) (yOf w)⟩,
    ⟨.variantNibble, 0x8007, fun w => .subnReg (xOf w) (yOf w)⟩,
    ⟨.variantNibble, 0x800E, fun w => .shl (xOf w) (yOf w)⟩ ]

/-- The entries with top nibble 9 to E (R78). -/
def tableHigh : List TableEntry :=
  [ ⟨.simple, 0x9000, fun w => .sneReg (xOf w) (yOf w) (nOf w)⟩,
    ⟨.simple, 0xA000, fun w => .ldI (nnnOf w)⟩,
    ⟨.simple, 0xB000, fun w => .jpV0 (nnnOf w)⟩,
    ⟨.simple, 0xC000, fun w => .rnd (xOf w) (kkOf w)⟩,
    ⟨.simple, 0xD000, fun w => .drw (xOf w) (yOf w) (nOf w)⟩,
    ⟨.variantByte, 0xE09E, fun w => .skp (xOf w)⟩,
    ⟨.variantByte, 0xE0A1, fun w => .sknp (xOf w)⟩ ]

/-- The entries with top nibble F (R78). -/
def tableMisc : List TableEntry :=
  [ ⟨.variantByte, 0xF007, fun w => .ldVxDt (xOf w)⟩,
    ⟨.variantByte, 0xF00A, fun w => .ldVxK (xOf w)⟩,
    ⟨.variantByte, 0xF015, fun w => .ldDtVx (xOf w)⟩,
    ⟨.variantByte, 0xF018, fun w => .ldStVx (xOf w)⟩,
    ⟨.variantByte, 0xF01E, fun w => .addIVx (xOf w)⟩,
    ⟨.variantByte, 0xF029, fun w => .ldFVx (xOf w)⟩,
    ⟨.variantByte, 0xF033, fun w => .ldBVx (xOf w)⟩,
    ⟨.variantByte, 0xF055, fun w => .ldMemVx (xOf w)⟩,
    ⟨.variantByte, 0xF065, fun w => .ldVxMem (xOf w)⟩ ]

/-- The 34 entries in the order of R78. -/
def dispatchTable : List TableEntry := tableLow ++ tableAlu ++ tableHigh ++ tableMisc

/-- "in table order, first match wins" (R79). -/
def dispatch (w : Word) : Option TableEntry := dispatchTable.find? (fun e => e.matches w)

/-! ## The host's question about a table word -/

/-- The bytes of an instruction given as its bits, bit 0 the least significant bit of its one 16-bit word and every bit
above `nbits` zero: the high byte lies at the lower address (20_memory.md R52). -/
def tableWordBytes (nbits w : Nat) : List Byte :=
  let word : Word := BitVec.ofNat 16 (w % 2 ^ nbits)
  [word.extractLsb' 8 8, word.extractLsb' 0 8]

/-- The instruction the decoder reads from an opcode-table word, none where it refuses. -/
def decodeTableWord (nbits w : Nat) : Option Instr :=
  match decodeBytes (tableWordBytes nbits w) with
  | .ok (i, _) => some i
  | .error _ => none

end Sys2Proof
end

