-- ==== Sys2Proof/Config.lean ====
section
/-! DEFINITION. What is fixed for the machine (00_scope.md R5) and the free values the spec leaves open.
The decided parameters' values stand in Machine/Params.lean; here are their types and the opaque constants. The sizes R5
fixes stand as numerals and types where they are used: MEM_SIZE 4096 (Memory.wf), NUM_V, STACK_DEPTH, DISP_W, DISP_H and
NUM_KEYS (the fields of State), FONT_BASE 0x000 and GLYPH_BYTES 5 (glyphAddress), FONT_END 0x04F (writeCheck), PROG_BASE
0x200 (State.reset, State.loadImage), MAX_IMAGE 3584 (State.loadImage), LAST_FETCH 0xFFE (fetchCheck). -/

namespace Sys2Proof.Config

/-- The values of `P_FONT_WRITE`: what a data write into the font table does (20_memory.md R58). -/
inductive FontWrite where
  | fault
  | write
  deriving DecidableEq, Repr

/-- The values of `P_ODD_FETCH`: what a fetch at an odd PC does (40_step_engine.md R103). -/
inductive OddFetch where
  | fault
  | fetch
  deriving DecidableEq, Repr

/-- Free value: the key vector the input source supplies at a host turn, any 16 bits (40_step_engine.md R113; log 4). -/
opaque hostKeys : Nat → BitVec 16

/-- Free value: the random byte of a host turn, any byte, no law across turns (40_step_engine.md R115; log 4). -/
opaque hostRandom : Nat → Byte

/-- Free value: the key-down edge the host delivers at a host turn, or none (40_step_engine.md R114, R120; log 4). -/
opaque hostEdge : Nat → Option Nibble

/-- Free value behind `EXIT_CODE`, by fault code; Machine/HostSide.lean puts R262's constraint on it (60_exceptions.md R262; log 20). -/
opaque exitCodeRaw : Nat → Int

end Sys2Proof.Config
end

