-- ==== Sys2Proof/Machine/State.lean ====
section
/-! DEFINITION. The state of the core as plain data (10_state.md R20 to R36), the reasons a step can stop, and the state
after reset (70_reset_and_hazards.md R270). -/

namespace Sys2Proof.Machine

/-! ## The parts of the state -/

/-- Memory (R33): the cells that differ from their reset contents, by rising address (log 15). Machine/Memory.lean reads it. -/
abbrev Memory := List Host.Cell

/-- The display grid (R34): 64 columns of 32 one-bit cells, `DISP[c][r]` at column `c`, row `r`. -/
abbrev Display := Vector (Vector Bool 32) 64

/-- `WAIT` (R31). -/
inductive WaitState where
  | running
  | awaitingKey (target : Nibble)
  deriving DecidableEq, Repr

/-- The access kind recorded with an address out of range (60_exceptions.md R240). -/
inductive AccessKind where
  | fetch
  | read
  | write
  deriving DecidableEq, Repr

/-- The fault kinds of 60_exceptions.md R240 with the per-kind data they record. -/
inductive FaultKind where
  /-- Code 1: no dispatch entry matches the fetched word (R241). -/
  | unrecognizedInstruction
  /-- Code 2: 2NNN with SP = 16 (R242). -/
  | stackOverflow
  /-- Code 3: 00EE with SP = 0 (R243). -/
  | stackUnderflow
  /-- Code 4: a fetch above 0xFFE or a data access above 0xFFF; the address is an exact integer (R246). -/
  | outOfRangeAddress (access : AccessKind) (addr : Nat)
  /-- Code 5: a fetch at an odd PC (R247). -/
  | misalignedFetch
  /-- Code 6: a data write into the font table (R248). -/
  | fontRegionWrite (addr : Nat)
  /-- Code 7: EX9E or EXA1 with V[x] above 0xF; `value` is V[x] (R249). -/
  | keyIndexOutOfRange (value : Byte)
  /-- Code 8: the image file is missing or unreadable; raised by the loader (R250). -/
  | programLoadFailure
  deriving DecidableEq, Repr

/-- `Fault(kind, pc, info)` of `HALT` (R32). `pc` is absent when no cycle ran (R240, ProgramLoadFailure), `word` when the
fault came before the fetch completed (40_step_engine.md R109). -/
structure FaultRecord where
  kind : FaultKind
  pc : Option Word
  word : Option Word
  deriving DecidableEq, Repr

/-- What the host brings to one step: the key vector and the random byte of a cycle, and the key-down edge it delivers,
if any (40_step_engine.md R100, R113 to R115). -/
structure HostTurn where
  keys : BitVec 16
  random : Byte
  edge : Option Nibble
  deriving DecidableEq, Repr

/-! ## The state -/

/-- The whole state of the machine. The last two fields are the model's own: the host's side of a run (log 4). -/
structure State where
  /-- V0 to VF (R20); VF is also the flag (R22). -/
  v : Vector Byte 16
  /-- The index register I (R28). -/
  i : Word
  /-- The program counter (R24). -/
  pc : Word
  /-- The count of stack slots in use, 0 to 16 (R30). -/
  sp : Fin 17
  /-- The return-address slots (R30). -/
  stack : Vector Word 16
  /-- The delay timer (R29). -/
  dt : Byte
  /-- The sound timer (R29). -/
  st : Byte
  /-- Memory (R33). -/
  mem : Memory
  /-- The display buffer (R34). -/
  disp : Display
  /-- The sampled key lines, bit k for key k (R35). -/
  keys : BitVec 16
  /-- The input-wait state (R31). -/
  wait : WaitState
  /-- The fault state (R32). -/
  halt : Option FaultRecord
  /-- The per-cycle output strobe (R36). A faulting cycle keeps it, and presents nothing (log 18, 19). -/
  displayChanged : Bool
  /-- The audio gate output (40_step_engine.md R108). -/
  tone : Bool
  /-- Host turns fixed in advance, oldest first (log 4). -/
  hostScript : List HostTurn
  /-- The number of host turns taken, the argument of the free values (log 4). -/
  hostClock : Nat
  deriving DecidableEq, Repr

/-- The machine right after reset, before an image is loaded (70_reset_and_hazards.md R270, R273). The two host fields are
the model's own choice (log 14). -/
def State.reset : State where
  v := Vector.replicate 16 0x00
  i := 0x0000
  pc := 0x0200
  sp := 0
  stack := Vector.replicate 16 0x0000
  dt := 0x00
  st := 0x00
  mem := []
  disp := Vector.replicate 64 (Vector.replicate 32 false)
  keys := 0
  wait := .running
  halt := none
  displayChanged := false
  tone := false
  hostScript := []
  hostClock := 0

/-! ## Why a step can stop -/

/-- The faults of a step. The spec's own faults are no outcome of a step: they are next states with `HALT` set (R244; log 3). -/
inductive Fault where
  /-- Raised by `step` alone, when `HALT` is set already: "Once HALT ≠ None no step of either kind exists" (40_step_engine.md
  R101). Safe: the core has stopped for good. -/
  | halted (record : FaultRecord)
  deriving DecidableEq, Repr

/-- The refusals of a step. -/
inductive Refusal where
  /-- Raised by an arm of `exec` that has no meaning yet. Safe: nothing is claimed of the instruction. No arm is one. -/
  | notModelled (mnemonic : String)
  deriving DecidableEq, Repr

/-- What a meaning or a step answers. -/
abbrev Result := Host.Outcome State Fault Refusal

end Sys2Proof.Machine
end

