-- ==== Sys2Proof/Machine/Display.lean ====
section
/-! DEFINITION. The display buffer's two operations, `Clear` and `Blit` (44_display.md R190 to R196). -/

namespace Sys2Proof.Machine

/-- `DISP[c][r]` (10_state.md R34). -/
def Display.cell (d : Display) (c : Fin 64) (r : Fin 32) : Bool := d[c][r]

/-- `DISP[c][r] <- DISP[c][r] ^ 1` (R192). -/
def Display.flip (d : Display) (c : Fin 64) (r : Fin 32) : Display := d.set c (d[c].set r (!d[c][r]))

/-- Every cell 0 (R191). -/
def Display.clear : Display := Vector.replicate 64 (Vector.replicate 32 false)

/-- The column of bit `j` of a sprite row: `(ox + j) mod 64` (R194). -/
def spriteColumn (ox j : Nat) : Fin 64 := Fin.ofNat 64 (ox + j)

/-- The row of sprite row `i`: `(oy + i) mod 32` (R194). -/
def spriteRow (oy i : Nat) : Fin 32 := Fin.ofNat 32 (oy + i)

/-- One sprite bit: a 1 flips the cell, and is a collision when the cell was set (R196). The second part of the pair says
whether a collision has happened so far. -/
def blitBit (bit : Bool) (c : Fin 64) (r : Fin 32) (acc : Display × Bool) : Display × Bool :=
  if bit then (Display.flip acc.1 c r, acc.2 || Display.cell acc.1 c r) else acc

/-- One sprite row at row `r`: bit `7 - j` is drawn at column offset `j`, the most significant bit leftmost (R195). -/
def blitRow (ox : Nat) (r : Fin 32) (row : Byte) (acc : Display × Bool) : Display × Bool :=
  (List.range 8).foldl (fun acc j => blitBit (row.getLsbD (7 - j)) (spriteColumn ox j) r acc) acc

/-- The rows of a sprite from row `i` on, in order (R192). -/
def blitRows (ox oy : Nat) : Nat → List Byte → Display × Bool → Display × Bool
  | _, [], acc => acc
  | i, row :: rows, acc => blitRows ox oy (i + 1) rows (blitRow ox (spriteRow oy i) row acc)

/-- `Blit` at an origin: the new grid, and whether any set cell was cleared (R190). -/
def blit (d : Display) (ox oy : Nat) (rows : List Byte) : Display × Bool := blitRows ox oy 0 rows (d, false)

end Sys2Proof.Machine
end

