-- ==== Sys2Proof/Machine/Params.lean ====
section
/-! DEFINITION. The values of the parameters the spec decides (00_scope.md R5). The operations take each parameter as an
argument, so the rules' other settings are modelled too; the meanings pass these values. -/

namespace Sys2Proof.Machine

/-- `P_SUB_EQ_FLAG`: VF after 8XY5 and 8XY7 when the operands are equal; default 1 (R5, decision D6; log 7). -/
def subEqFlag : Bool := true

/-- `P_FONT_WRITE`: default `fault` (R5, decision D10; log 8). -/
def fontWrite : Config.FontWrite := .fault

/-- `P_ODD_FETCH`: default `fault` (R5, decision D11; log 9). -/
def oddFetch : Config.OddFetch := .fault

/-- `FONT`, glyphs 0 to 7: the default table of 10_state.md R33 (decision D4; log 10). -/
def fontLow : List Byte :=
  [ 0xF0, 0x90, 0x90, 0x90, 0xF0,
    0x20, 0x60, 0x20, 0x20, 0x70,
    0xF0, 0x10, 0xF0, 0x80, 0xF0,
    0xF0, 0x10, 0xF0, 0x10, 0xF0,
    0x90, 0x90, 0xF0, 0x10, 0x10,
    0xF0, 0x80, 0xF0, 0x10, 0xF0,
    0xF0, 0x80, 0xF0, 0x90, 0xF0,
    0xF0, 0x10, 0x20, 0x40, 0x40 ]

/-- `FONT`, glyphs 8 to F (10_state.md R33, decision D4; log 10). -/
def fontHigh : List Byte :=
  [ 0xF0, 0x90, 0xF0, 0x90, 0xF0,
    0xF0, 0x90, 0xF0, 0x10, 0xF0,
    0xF0, 0x90, 0xF0, 0x90, 0x90,
    0xE0, 0x90, 0xE0, 0x90, 0xE0,
    0xF0, 0x80, 0x80, 0x80, 0xF0,
    0xE0, 0x90, 0x90, 0x90, 0xE0,
    0xF0, 0x80, 0xF0, 0x80, 0xF0,
    0xF0, 0x80, 0xF0, 0x80, 0x80 ]

/-- `FONT`: 16 glyphs of 5 bytes, glyph d at 5·d (10_state.md R33). -/
def font : List Byte := fontLow ++ fontHigh

end Sys2Proof.Machine
end

