-- ==== Sys2Proof/Machine/Memory.lean ====
section
/-! DEFINITION. Memory as a sparse list in one canonical form, and the access checks (20_memory.md). -/

namespace Sys2Proof.Machine

/-- What an address that is not listed reads as: its reset contents, the font table below 0x050 and 0x00 elsewhere
(10_state.md R33; log 15). -/
def Memory.initial (a : Nat) : Byte := font.getD a 0x00

/-- `MEM[a]` (R50). -/
def Memory.read : Memory → Nat → Byte
  | [], a => Memory.initial a
  | c :: m, a => if c.1 = a then c.2 else Memory.read m a

/-- The listing of one cell: none when it holds its reset contents. -/
def Memory.cell (a : Nat) (b : Byte) : Memory := if b = Memory.initial a then [] else [(a, b)]

/-- `MEM[a] <- b`, keeping the canonical form. The address checks are made before (00_scope.md R10). -/
def Memory.write : Memory → Nat → Byte → Memory
  | [], a, b => Memory.cell a b
  | c :: m, a, b =>
    if a < c.1 then Memory.cell a b ++ c :: m
    else if a = c.1 then Memory.cell a b ++ m
    else c :: Memory.write m a b

/-- Bytes stored from an address upward, in order (R55). -/
def Memory.store (m : Memory) (a : Nat) : List Byte → Memory
  | [] => m
  | b :: bs => Memory.store (m.write a b) (a + 1) bs

/-- `n` bytes read from an address upward, in order (R55). -/
def Memory.load (m : Memory) (a n : Nat) : List Byte := (List.range n).map (fun k => m.read (a + k))

/-- The word at an address: `{MEM[a], MEM[a+1]}` (R52). -/
def Memory.wordAt (m : Memory) (a : Nat) : Word := joinBytes (m.read a) (m.read (a + 1))

/-- The canonical form: addresses of the space, strictly rising, none listed at its reset contents. -/
abbrev Memory.wf (m : Memory) : Prop :=
  m.Pairwise (fun c d => c.1 < d.1) ∧ ∀ c ∈ m, c.1 < 4096 ∧ c.2 ≠ Memory.initial c.1

/-! ## Access checks (00_scope.md R10, R53, R58) -/

/-- The check of `MemRead(a, 1)`: the address is an exact integer, never wrapped (R53). -/
def readCheck (a : Nat) : Option FaultKind :=
  if a > 0xFFF then some (.outOfRangeAddress .read a) else none

/-- The check of `MemWrite(a, 1, v)`: the range before the font table (R58, 60_exceptions.md R251). -/
def writeCheck (policy : Config.FontWrite) (a : Nat) : Option FaultKind :=
  if a > 0xFFF then some (.outOfRangeAddress .write a)
  else if a ≤ 0x04F ∧ policy = .fault then some (.fontRegionWrite a)
  else none

/-- The first fault of a check over `n` addresses from `base`, in increasing offset (R251). -/
def firstFault (check : Nat → Option FaultKind) (base n : Nat) : Option FaultKind :=
  (List.range n).findSome? (fun k => check (base + k))

/-- The fetch checks at a PC, the range before the alignment (40_step_engine.md R102, R103). -/
def fetchCheck (policy : Config.OddFetch) (pc : Word) : Option FaultKind :=
  if pc.toNat > 0xFFE then some (.outOfRangeAddress .fetch pc.toNat)
  else if pc.toNat % 2 = 1 ∧ policy = .fault then some .misalignedFetch
  else none

end Sys2Proof.Machine
end

