-- ==== Sys2Proof/Machine/Ops.lean ====
section
/-! DEFINITION. The named operations over registers, stack, timers and memory that the meanings share, and fault entry. -/

namespace Sys2Proof.Machine

/-! ## Field writes -/

/-- `V[x]` (00_scope.md R9). -/
def State.readV (s : State) (x : Nibble) : Byte := s.v[x.toNat]'x.isLt

/-- `V[x] <- b` (00_scope.md R9). No register is hardwired (10_state.md R20). -/
def State.writeV (s : State) (x : Nibble) (b : Byte) : State := { s with v := s.v.set x.toNat b x.isLt }

/-- `I <- a` (10_state.md R28). -/
def State.setI (s : State) (a : Word) : State := { s with i := a }

/-- `PC <- a` (00_scope.md R9). -/
def State.setPc (s : State) (a : Word) : State := { s with pc := a }

/-- `DT <- b` (10_state.md R29). -/
def State.setDt (s : State) (b : Byte) : State := { s with dt := b }

/-- `ST <- b` (10_state.md R29). -/
def State.setSt (s : State) (b : Byte) : State := { s with st := b }

/-- Memory replaced by the result of a store. -/
def State.setMem (s : State) (m : Memory) : State := { s with mem := m }

/-- The display replaced by the result of `Clear` or `Blit`, with `display_changed <- 1` (44_display.md R193). -/
def State.redraw (s : State) (d : Display) : State := { s with disp := d, displayChanged := true }

/-- `WAIT <- w` (10_state.md R31). -/
def State.setWait (s : State) (w : WaitState) : State := { s with wait := w }

/-- `MEM[a]`. -/
def State.readMem (s : State) (a : Nat) : Byte := s.mem.read a

/-! ## Control flow -/

/-- `if c: skip`, where `skip` is `PC <- u16(PC + 2)` (41_control_flow.md, 10_state.md R25). -/
def State.skipIf (s : State) (c : Bool) : State := s.setPc (if c then s.pc + 2 else s.pc)

/-- `STACK[SP] <- a; SP <- SP + 1`, with a slot left (41_control_flow.md R133). -/
def State.push (s : State) (a : Word) (h : s.sp.val < 16) : State :=
  { s with stack := s.stack.set s.sp.val a h, sp := ⟨s.sp.val + 1, Nat.succ_lt_succ h⟩ }

/-- `SP <- SP - 1; PC <- STACK[SP]`, with a slot in use. The slot keeps its value (41_control_flow.md R131). -/
def State.pop (s : State) (h : 0 < s.sp.val) : State :=
  { s with
    sp := ⟨s.sp.val - 1, lt_of_le_of_lt (Nat.sub_le _ _) s.sp.isLt⟩
    pc := s.stack[s.sp.val - 1]'(Nat.sub_one_lt_of_le h (Nat.le_of_lt_succ s.sp.isLt)) }

/-! ## Register lists -/

/-- `V[0]` to `V[n-1]`, in order (46_memory_transfer.md R231). -/
def State.registers (s : State) (n : Nat) : List Byte := (List.range n).map (fun k => s.readV (BitVec.ofNat 4 k))

/-- `V[k]`, `V[k+1]` and so on loaded from a list of bytes (46_memory_transfer.md R232). -/
def State.loadRegisters (s : State) (k : Nat) : List Byte → State
  | [] => s
  | b :: bs => (s.writeV (BitVec.ofNat 4 k) b).loadRegisters (k + 1) bs

/-! ## Faults (60_exceptions.md R244, R245) -/

/-- Fault entry, the one operation that sets `HALT`. Nothing else changes (R244, R245). -/
def State.enterFault (s : State) (record : FaultRecord) : State := { s with halt := some record }

/-- `raise K(info)` from a handler running the word `w`. On entry to a handler PC is the instruction's address plus 2
(00_scope.md R11), so the address recorded, and the PC left, is PC - 2 (R245; log 22). -/
def raise (w : Word) (kind : FaultKind) (s : State) : Result :=
  .next ((s.setPc (s.pc - 2)).enterFault ⟨kind, some (s.pc - 2), some w⟩)

/-- A handler that checks before it changes anything (00_scope.md R10): the fault the check found, or the effect. -/
def guarded (w : Word) (check : Option FaultKind) (s effect : State) : Result :=
  match check with
  | some kind => raise w kind s
  | none => .next effect

/-! ## The host's turn (log 4) -/

/-- What the host brings to the coming step: the next turn of the script, or the free values. -/
def State.hostTurn (s : State) : HostTurn :=
  match s.hostScript with
  | t :: _ => t
  | [] => ⟨Config.hostKeys s.hostClock, Config.hostRandom s.hostClock, Config.hostEdge s.hostClock⟩

/-- The host's turn is over. -/
def State.endTurn (s : State) : State := { s with hostScript := s.hostScript.tail, hostClock := s.hostClock + 1 }

/-! ## The ends of a cycle -/

/-- Before the handler: `KEYS <- keys`, `display_changed <- 0`, `PC <- u16(addr + 2)` (40_step_engine.md R104, R107, R110). -/
def State.beginCycle (s : State) : State :=
  { s with keys := s.hostTurn.keys, displayChanged := false, pc := s.pc + 2 }

/-- One timer's tick (60_exceptions.md R255). -/
def tick (t : Byte) : Byte := if t.toNat > 0 then t - 1 else t

/-- After the handler: both timers tick, then `tone` is evaluated (40_step_engine.md R106, R108; 60_exceptions.md R255, R257). -/
def State.endCycle (s : State) : State :=
  { s with dt := tick s.dt, st := tick s.st, tone := decide ((tick s.st).toNat > 0) }.endTurn

/-! ## The key-edge step -/

/-- `KeyEdge(k)`: completes a wait, and is dropped while Running (45_input_timers.md R217, R218). -/
def State.keyEdge (s : State) (k : Nibble) : State :=
  match s.wait with
  | .running => s
  | .awaitingKey x => (s.writeV x (k.setWidth 8)).setWait .running

end Sys2Proof.Machine
end

