-- ==== Sys2Proof/Machine/Boot.lean ====
section
/-! DEFINITION. How a program comes into memory: the loader (40_step_engine.md R118, 70_reset_and_hazards.md R271 to R273),
and one instruction placed where the next fetch reads (log 16). -/

namespace Sys2Proof.Machine

/-- The loader's copy: at most 3584 bytes to 0x200 upward, the rest silently not loaded (R271). -/
def State.loadImage (s : State) (image : List Byte) : State :=
  s.setMem (s.mem.store 0x200 (image.take 3584))

/-- Start-up, in the order of R273: the reset state with the image loaded, or, for a missing or unreadable file,
`ProgramLoadFailure` with no cycle run (R272; log 21). -/
def boot : Option (List Byte) → State
  | some image => State.reset.loadImage image
  | none => State.reset.enterFault ⟨.programLoadFailure, none, none⟩

/-- A PC the fetch accepts: the given one, or 0x200 (log 16). -/
def fetchablePc (pc : Word) : Word :=
  if fetchCheck oddFetch pc = none then pc else 0x0200

/-- The state whose next step is a cycle that fetches the two given bytes (log 16). -/
def State.placeInstruction (s : State) (bytes : List Byte) : State :=
  { s with
    pc := fetchablePc s.pc
    mem := s.mem.store (fetchablePc s.pc).toNat bytes
    wait := .running
    halt := none }

end Sys2Proof.Machine
end

