-- ==== Sys2Proof/Machine/Flags.lean ====
section
/-! DEFINITION. The flag computations: VF is the machine's only flag (10_state.md R22, R27). -/

namespace Sys2Proof.Machine

/-- A flag as VF holds it: 1 or 0. -/
def flagByte (b : Bool) : Byte := if b then 1 else 0

/-- The carry out of bit 7 of `a + b` (42_alu.md R157). -/
def carryFlag (a b : Byte) : Byte := flagByte (decide (a.toNat + b.toNat > 0xFF))

/-- The not-borrow of `a - b`; `eqFlag` is `P_SUB_EQ_FLAG` (42_alu.md R158, R160). -/
def notBorrowFlag (eqFlag : Bool) (a b : Byte) : Byte :=
  flagByte (if a.toNat > b.toNat then true else if a = b then eqFlag else false)

/-- The bit a right shift drops: bit 0 (42_alu.md R159). -/
def shiftRightFlag (a : Byte) : Byte := flagByte (a.getLsbD 0)

/-- The bit a left shift drops: bit 7 (42_alu.md R161). -/
def shiftLeftFlag (a : Byte) : Byte := flagByte (a.getLsbD 7)

/-- The index-add's range flag: the 16-bit sum exceeds 0xFFF (43_index_random.md R181). -/
def rangeFlag (sum : Word) : Byte := flagByte (decide (sum.toNat > 0xFFF))

/-- The collision flag of a draw (44_display.md R196). -/
def collisionFlag (hit : Bool) : Byte := flagByte hit

end Sys2Proof.Machine
end

