-- ==== Sys2Proof/Machine/Operands.lean ====
section
/-! DEFINITION. The operand forms: immediates, the addresses formed from I, the key a register names, the sprite's origin. -/

namespace Sys2Proof.Machine

/-- NNN zero-extended to 16 bits, as it is loaded into PC or I (30_encoding.md R73). -/
def zext12 (nnn : Imm12) : Word := nnn.setWidth 16

/-- The flag register's index (10_state.md R22). -/
abbrev flagReg : Nibble := 0xF

/-- The base of every data access: I as an exact integer (20_memory.md R53). -/
def State.dataBase (s : State) : Nat := s.i.toNat

/-- How many registers `X` counts in FX55 and FX65: V0 to V[x] (30_encoding.md R74). -/
def registerCount (x : Nibble) : Nat := x.toNat + 1

/-- The target of BNNN: `u16(zext_16(nnn) + V[0])`, not masked (41_control_flow.md R134). -/
def State.indexedTarget (s : State) (nnn : Imm12) : Word := zext12 nnn + (s.readV 0x0).setWidth 16

/-- The glyph address of a value: `u16(FONT_BASE + 5 * v)`, not masked (43_index_random.md R182). -/
def glyphAddress (b : Byte) : Word := BitVec.ofNat 16 (0x000 + 5 * b.toNat)

/-- The check of a key operand: V[x] above 0xF names no line (45_input_timers.md R210, R211). -/
def keyCheck (b : Byte) : Option FaultKind := if b.toNat > 0xF then some (.keyIndexOutOfRange b) else none

/-- `KEYS[k]` of this cycle's sample (10_state.md R35). -/
def State.keyDown (s : State) (b : Byte) : Bool := s.keys.getLsbD b.toNat

/-- The three decimal digits of a byte, hundreds first (46_memory_transfer.md R230). -/
def bcdDigits (b : Byte) : List Byte :=
  [BitVec.ofNat 8 (b.toNat / 100), BitVec.ofNat 8 (b.toNat / 10 % 10), BitVec.ofNat 8 (b.toNat % 10)]

end Sys2Proof.Machine
end

