-- ==== Sys2Proof/Machine/Alu.lean ====
section
/-! DEFINITION. Immediate moves and the register ALU (42_alu.md R150 to R162). Operands are read from the state on entry;
a result is written before the flag, so the flag wins when X is F (00_scope.md R12; log 24). -/

namespace Sys2Proof.Machine

/-- The result to V[x], then the flag to VF (R152). -/
def State.writeResultFlag (s : State) (x : Nibble) (result flag : Byte) : State := (s.writeV x result).writeV flagReg flag

/-- LD Vx, kk (R150). -/
def execLdImm (x : Nibble) (kk : Byte) (s : State) : Result := .next (s.writeV x kk)

/-- ADD Vx, kk (R151): no flag. -/
def execAddImm (x : Nibble) (kk : Byte) (s : State) : Result := .next (s.writeV x (s.readV x + kk))

/-- LD Vx, Vy (R153). -/
def execLdReg (x y : Nibble) (s : State) : Result := .next (s.writeV x (s.readV y))

/-- OR Vx, Vy (R154): no flag. -/
def execOrReg (x y : Nibble) (s : State) : Result := .next (s.writeV x (s.readV x ||| s.readV y))

/-- AND Vx, Vy (R155): no flag. -/
def execAndReg (x y : Nibble) (s : State) : Result := .next (s.writeV x (s.readV x &&& s.readV y))

/-- XOR Vx, Vy (R156): no flag. -/
def execXorReg (x y : Nibble) (s : State) : Result := .next (s.writeV x (s.readV x ^^^ s.readV y))

/-- ADD Vx, Vy (R157): the flag is the carry. -/
def execAddReg (x y : Nibble) (s : State) : Result :=
  .next (s.writeResultFlag x (s.readV x + s.readV y) (carryFlag (s.readV x) (s.readV y)))

/-- SUB Vx, Vy (R158): the flag is the not-borrow. -/
def execSubReg (x y : Nibble) (s : State) : Result :=
  .next (s.writeResultFlag x (s.readV x - s.readV y) (notBorrowFlag subEqFlag (s.readV x) (s.readV y)))

/-- SHR Vx (R159): V[y] is not read. -/
def execShr (x _y : Nibble) (s : State) : Result :=
  .next (s.writeResultFlag x (s.readV x >>> 1) (shiftRightFlag (s.readV x)))

/-- SUBN Vx, Vy (R160): the not-borrow of V[y] - V[x]. -/
def execSubnReg (x y : Nibble) (s : State) : Result :=
  .next (s.writeResultFlag x (s.readV y - s.readV x) (notBorrowFlag subEqFlag (s.readV y) (s.readV x)))

/-- SHL Vx (R161): V[y] is not read. -/
def execShl (x _y : Nibble) (s : State) : Result :=
  .next (s.writeResultFlag x (s.readV x <<< 1) (shiftLeftFlag (s.readV x)))

end Sys2Proof.Machine
end

