-- ==== Sys2Proof/Machine/ControlFlow.lean ====
section
/-! DEFINITION. Control flow (41_control_flow.md R130 to R139). On entry PC is the instruction's address plus 2 (00_scope.md R11). -/

namespace Sys2Proof.Machine

/-- RET (R131). -/
def execRet (x : Nibble) (s : State) : Result :=
  if h : 0 < s.sp.val then .next (s.pop h) else raise (encode (.ret x)) .stackUnderflow s

/-- JP nnn (R132). -/
def execJp (nnn : Imm12) (s : State) : Result := .next (s.setPc (zext12 nnn))

/-- CALL nnn (R133): the return address pushed is PC, the address after the call. -/
def execCall (nnn : Imm12) (s : State) : Result :=
  if h : s.sp.val < 16 then .next ((s.push s.pc h).setPc (zext12 nnn)) else raise (encode (.call nnn)) .stackOverflow s

/-- JP V0, nnn (R134). -/
def execJpV0 (nnn : Imm12) (s : State) : Result := .next (s.setPc (s.indexedTarget nnn))

/-- SE Vx, kk (R135). -/
def execSeImm (x : Nibble) (kk : Byte) (s : State) : Result := .next (s.skipIf (s.readV x == kk))

/-- SNE Vx, kk (R136). -/
def execSneImm (x : Nibble) (kk : Byte) (s : State) : Result := .next (s.skipIf (s.readV x != kk))

/-- SE Vx, Vy (R137); N is ignored. -/
def execSeReg (x y _n : Nibble) (s : State) : Result := .next (s.skipIf (s.readV x == s.readV y))

/-- SNE Vx, Vy (R138); N is ignored. -/
def execSneReg (x y _n : Nibble) (s : State) : Result := .next (s.skipIf (s.readV x != s.readV y))

end Sys2Proof.Machine
end

