-- ==== Sys2Proof/Machine/Draw.lean ====
section
/-! DEFINITION. The display instructions (44_display.md R191, R192). -/

namespace Sys2Proof.Machine

/-- CLS (R191): VF is not written. -/
def execCls (_x : Nibble) (s : State) : Result := .next (s.redraw Display.clear)

/-- The sprite of a DXYN: its `n` rows, read from I upward (R195). -/
def State.sprite (s : State) (n : Nibble) : List Byte := s.mem.load s.dataBase n.toNat

/-- The blit of a DXYN. The origin is V[x], V[y] as they are before VF is cleared (R192). -/
def State.drawn (s : State) (x y n : Nibble) : Display × Bool :=
  blit s.disp (s.readV x).toNat (s.readV y).toNat (s.sprite n)

/-- DRW Vx, Vy, n (R192): every address is checked before any effect. -/
def execDrw (x y n : Nibble) (s : State) : Result :=
  guarded (encode (.drw x y n)) (firstFault readCheck s.dataBase n.toNat) s
    ((s.writeV flagReg (collisionFlag (s.drawn x y n).2)).redraw (s.drawn x y n).1)

end Sys2Proof.Machine
end

