-- ==== Sys2Proof/Machine/Index.lean ====
section
/-! DEFINITION. The index register and randomization (43_index_random.md R180 to R183). -/

namespace Sys2Proof.Machine

/-- LD I, nnn (R180). -/
def execLdI (nnn : Imm12) (s : State) : Result := .next (s.setI (zext12 nnn))

/-- The 16-bit sum of FX1E: `u16(I + V[x])` (R181). -/
def State.indexSum (s : State) (x : Nibble) : Word := s.i + (s.readV x).setWidth 16

/-- ADD I, Vx (R181): I is not masked, and VF is the range flag of the 16-bit sum. -/
def execAddIVx (x : Nibble) (s : State) : Result :=
  .next ((s.setI (s.indexSum x)).writeV flagReg (rangeFlag (s.indexSum x)))

/-- LD F, Vx (R182). -/
def execLdFVx (x : Nibble) (s : State) : Result := .next (s.setI (glyphAddress (s.readV x)))

/-- RND Vx, kk (R183): the random byte is the host's, any byte (40_step_engine.md R115). -/
def execRnd (x : Nibble) (kk : Byte) (s : State) : Result := .next (s.writeV x (s.hostTurn.random &&& kk))

end Sys2Proof.Machine
end

