-- ==== Sys2Proof/Machine/Input.lean ====
section
/-! DEFINITION. Input tests, timer moves and the key-wait entry (45_input_timers.md R210 to R215). -/

namespace Sys2Proof.Machine

/-- SKP Vx (R210). -/
def execSkp (x : Nibble) (s : State) : Result :=
  guarded (encode (.skp x)) (keyCheck (s.readV x)) s (s.skipIf (s.keyDown (s.readV x)))

/-- SKNP Vx (R211). -/
def execSknp (x : Nibble) (s : State) : Result :=
  guarded (encode (.sknp x)) (keyCheck (s.readV x)) s (s.skipIf (!s.keyDown (s.readV x)))

/-- LD Vx, DT (R212): DT before this cycle's tick. -/
def execLdVxDt (x : Nibble) (s : State) : Result := .next (s.writeV x s.dt)

/-- LD DT, Vx (R213). -/
def execLdDtVx (x : Nibble) (s : State) : Result := .next (s.setDt (s.readV x))

/-- LD ST, Vx (R214). -/
def execLdStVx (x : Nibble) (s : State) : Result := .next (s.setSt (s.readV x))

/-- LD Vx, K (R215): V[x] is written when the edge arrives, not here. -/
def execLdVxK (x : Nibble) (s : State) : Result := .next (s.setWait (.awaitingKey x))

end Sys2Proof.Machine
end

