-- ==== Sys2Proof/Machine/Transfer.lean ====
section
/-! DEFINITION. The BCD store and the bulk register transfers (46_memory_transfer.md R230 to R232). I is never modified. -/

namespace Sys2Proof.Machine

/-- LD B, Vx (R230). -/
def execLdBVx (x : Nibble) (s : State) : Result :=
  guarded (encode (.ldBVx x)) (firstFault (writeCheck fontWrite) s.dataBase 3) s
    (s.setMem (s.mem.store s.dataBase (bcdDigits (s.readV x))))

/-- LD [I], Vx (R231). -/
def execLdMemVx (x : Nibble) (s : State) : Result :=
  guarded (encode (.ldMemVx x)) (firstFault (writeCheck fontWrite) s.dataBase (registerCount x)) s
    (s.setMem (s.mem.store s.dataBase (s.registers (registerCount x))))

/-- LD Vx, [I] (R232). -/
def execLdVxMem (x : Nibble) (s : State) : Result :=
  guarded (encode (.ldVxMem x)) (firstFault readCheck s.dataBase (registerCount x)) s
    (s.loadRegisters 0 (s.mem.load s.dataBase (registerCount x)))

end Sys2Proof.Machine
end

