-- ==== Sys2Proof/Machine/Cycle.lean ====
section
/-! DEFINITION. The cycle around a handler and the choice between the two kinds of step (40_step_engine.md R100 to R110). -/

namespace Sys2Proof.Machine

/-- The end of a cycle that started in `s`, from what its handler answered: a handler that raised leaves `s` with `HALT`
set and nothing else changed (R109, R110; log 18), any other is followed by the tick (R106). -/
def finishCycle (s : State) : Result → Result
  | .next t =>
    match t.halt with
    | some record => .next (s.enterFault record)
    | none => .next t.endCycle
  | .fault r => .fault r
  | .refused r => .refused r

/-- Decode, dispatch, advance and execute a fetched word (R104, R105). -/
def runWord (s : State) (w : Word) : Result :=
  match decode w with
  | .ok i => finishCycle s (exec i s.beginCycle)
  | .error _ => .next (s.enterFault ⟨.unrecognizedInstruction, some s.pc, some w⟩)

/-- `Cycle(keys, r)`, the inputs being those of the host's turn (R102 to R110). -/
def cycle (s : State) : Result :=
  match fetchCheck oddFetch s.pc with
  | some kind => .next (s.enterFault ⟨kind, some s.pc, none⟩)
  | none => runWord s (s.mem.wordAt s.pc.toNat)

/-- A host turn while AwaitingKey: the edge, if one comes, and otherwise nothing (R101, 45_input_timers.md R216, R217; log 5). -/
def waitTurn (s : State) : State :=
  match s.hostTurn.edge with
  | some k => (s.keyEdge k).endTurn
  | none => s.endTurn

/-- One step. No step exists once `HALT` is set (R101; log 3). While Running a cycle runs; an edge of that turn would change
no state (45_input_timers.md R218; log 6). -/
def turn (s : State) : Result :=
  match s.halt with
  | some record => .fault (.halted record)
  | none =>
    match s.wait with
    | .running => cycle s
    | .awaitingKey _ => .next (waitTurn s)

end Sys2Proof.Machine
end

