-- ==== Sys2Proof/Machine/Step.lean ====
section
/-! DEFINITION. One step of the machine (40_step_engine.md R100), and the state whose next step runs a given instruction. -/

namespace Sys2Proof.Machine

/-- One step: a cycle, a host turn while AwaitingKey, or the fault `halted` (Machine/Cycle.lean). -/
def step (s : State) : Host.Outcome State Fault Refusal := turn s

/-- `s` with one instruction, given as its bits, stored where `step` fetches next, so that the very next step runs it (log 16). -/
def State.withFetchWord (s : State) (nbits w : Nat) : State := s.placeInstruction (tableWordBytes nbits w)

end Sys2Proof.Machine
end

