-- ==== Sys2Proof/Machine/HostSide.lean ====
section
/-! DEFINITION. What the collaborators get from the core (40_step_engine.md R108, R113, R116, R117, R119). No core rule reads any of it. -/

namespace Sys2Proof.Machine

/-- The step from `s` to `s'` was a completed cycle: it began Running and raised nothing (R106, R109). -/
def State.completes (s s' : State) : Bool := s.wait == .running && s'.halt.isNone

/-- What the presentation sink receives of the step from `s` to `s'`: the whole grid after a completed cycle whose
`display_changed` is 1, and nothing of a faulting cycle or of a wait (R108, R109, R116). -/
def State.presented (s s' : State) : Option Display :=
  if s.completes s' && s'.displayChanged then some s'.disp else none

/-- The audio gate's value (R117). It holds while suspended or halted (60_exceptions.md R257). -/
def State.audioGate (s : State) : Bool := s.tone

/-- The code of a fault kind (60_exceptions.md R240). -/
def FaultKind.code : FaultKind → Nat
  | .unrecognizedInstruction => 1
  | .stackOverflow => 2
  | .stackUnderflow => 3
  | .outOfRangeAddress _ _ => 4
  | .misalignedFetch => 5
  | .fontRegionWrite _ => 6
  | .keyIndexOutOfRange _ => 7
  | .programLoadFailure => 8

/-- What R262 asks of `EXIT_CODE`: a non-zero integer for every kind, and the codes of ProgramLoadFailure and
UnrecognizedInstruction distinct. -/
abbrev ExitCodesValid (f : Nat → Int) : Prop := (∀ k < 8, f (k + 1) ≠ 0) ∧ f 8 ≠ f 1

/-- `EXIT_CODE`, an open parameter: any function R262 allows. The opaque constant is used as it is when it meets R262's
constraint; the other branch only keeps the constraint true of every value of the constant (log 20). -/
def exitCode (kind : FaultKind) : Int :=
  if ExitCodesValid Config.exitCodeRaw then Config.exitCodeRaw kind.code else kind.code

/-- The status the host ends the process with, once the core has faulted (R119, 60_exceptions.md R262). -/
def State.exitStatus (s : State) : Option Int := s.halt.map (fun record => exitCode record.kind)

/-- The physical keys of the collaborator's mapping (R113). -/
def physicalKeys : List Char :=
  ['1', '2', '3', '4', 'Q', 'W', 'E', 'R', 'A', 'S', 'D', 'F', 'Z', 'X', 'C', 'V']

/-- The logical key of a physical one: its place in the mapping (R113). -/
def logicalKey (c : Char) : Option Nibble := (physicalKeys.findIdx? (· == c)).map (BitVec.ofNat 4)

end Sys2Proof.Machine
end

