-- ==== Sys2Proof/Safety.lean ====
section
/-! DEFINITION. The terms the claims are stated in: how a run stands (40_step_engine.md R111), the invariant of every step,
and what a recorded fault says of the state it was raised in. -/

namespace Sys2Proof

/-! ## Classes of instructions -/

/-- The instruction is one of the two that change the display (10_state.md R34). -/
def Instr.Draws (i : Instr) : Prop := (∃ x y n, i = .drw x y n) ∨ ∃ x, i = .cls x

/-- The instructions that write VF as a flag (10_state.md R22). -/
def Instr.WritesFlag (i : Instr) : Prop :=
  ∃ x y n : Nibble, i = .addReg x y ∨ i = .subReg x y ∨ i = .subnReg x y ∨ i = .shr x y ∨ i = .shl x y ∨
    i = .drw x y n ∨ i = .addIVx x

/-- The instructions whose ordinary destination is V[x] (10_state.md R21); FX0A's V[x] is written by the key edge. -/
def Instr.HasDestination (i : Instr) (x : Nibble) : Prop :=
  ∃ (y : Nibble) (kk : Byte), i = .ldImm x kk ∨ i = .addImm x kk ∨ i = .ldReg x y ∨ i = .orReg x y ∨ i = .andReg x y ∨
    i = .xorReg x y ∨ i = .addReg x y ∨ i = .subReg x y ∨ i = .shr x y ∨ i = .subnReg x y ∨ i = .shl x y ∨
    i = .rnd x kk ∨ i = .ldVxDt x ∨ i = .ldVxMem x

end Sys2Proof

namespace Sys2Proof.Machine

/-! ## Encodings -/

/-- Every word with this match and mask decodes to the given instruction of its own fields (30_encoding.md R77, R78). -/
def EncodedBy (mask pattern : Word) (build : Word → Instr) : Prop :=
  ∀ w : Word, w &&& mask = pattern → decode w = .ok (build w)

/-! ## Shapes of an instruction's effect -/

/-- The instruction answers a next state in which every register holds the given value and nothing else has changed: PC,
I, timers, stack, memory, display, keys, WAIT, HALT and the outputs stay as they are on entry. -/
def State.RegistersBecome (s : State) (i : Instr) (val : Nibble → Byte) : Prop :=
  ∃ t, exec i s = .next t ∧ (∀ r, t.readV r = val r) ∧ { t with v := s.v } = s

/-- The handler's entry state of a cycle that starts in `s` (40_step_engine.md R104, R107, R110). -/
def State.entry (s : State) : State :=
  { s with keys := s.hostTurn.keys, displayChanged := false, pc := s.pc + 2 }

/-- The state a handler leaves when it raises a fault while it runs the word `w`: only `HALT` is set, and PC is back at the
instruction's address (60_exceptions.md R244, R245, decision D18; log 18, 22). -/
def State.raised (s : State) (w : Word) (kind : FaultKind) : State :=
  { s with pc := s.pc - 2, halt := some ⟨kind, some (s.pc - 2), some w⟩ }

/-- The state a cycle that raises before or after its fetch leaves: `s` with `HALT` set (40_step_engine.md R109). -/
def State.halted (s : State) (kind : FaultKind) (word : Option Word) : State :=
  { s with halt := some ⟨kind, some s.pc, word⟩ }

/-- A set bit of the sprite of `DRW Vx, Vy, n` lands in the cell at column `c`, row `r` (44_display.md R192, R194, R195). -/
def State.SpriteBit (s : State) (x y n : Nibble) (c : Fin 64) (r : Fin 32) : Prop :=
  ∃ i j : Nat, i < n.toNat ∧ j < 8 ∧ (s.readMem (s.dataBase + i)).getLsbD (7 - j) = true ∧
    c.val = ((s.readV x).toNat + j) % 64 ∧ r.val = ((s.readV y).toNat + i) % 32

/-! ## How a run stands (R111) -/

/-- Outcome (a): a fault has been raised. -/
def State.Faulted (s : State) : Prop := s.halt ≠ none

/-- Outcome (b): spinning at `a`, the instruction at PC = a being `JP a`. -/
def State.SpinningAt (s : State) (a : Word) : Prop :=
  s.halt = none ∧ s.wait = .running ∧ s.pc = a ∧ a.toNat % 2 = 0 ∧ a.toNat ≤ 0xFFE ∧ s.mem.wordAt a.toNat = 0x1000 ||| a

/-- Outcome (c): waiting for a key into V[x]. -/
def State.WaitingFor (s : State) (x : Nibble) : Prop := s.halt = none ∧ s.wait = .awaitingKey x

/-- A cycle step exists (R101), and its fetch passes both checks under the default parameters (R102, R103). -/
def State.ReadyToFetch (s : State) : Prop :=
  s.halt = none ∧ s.wait = .running ∧ s.pc.toNat ≤ 0xFFE ∧ s.pc.toNat % 2 = 0

/-- The word the next fetch reads: `{MEM[PC], MEM[PC+1]}` (20_memory.md R52). -/
def State.nextWord (s : State) : Word := s.readMem s.pc.toNat ++ s.readMem (s.pc.toNat + 1)

/-! ## The invariant -/

/-- What every step keeps. -/
structure State.Inv (s : State) : Prop where
  /-- Memory is in its canonical form, so it lists addresses of the space only. -/
  memory : s.mem.wf
  /-- The audio gate output agrees with the sound timer (60_exceptions.md R257). -/
  tone : s.tone = decide (s.st.toNat > 0)
  /-- Every return address in use is one a call can have pushed: even, and after an address a fetch can read. -/
  returns : ∀ (j : Nat) (h : j < 16), j < s.sp.val →
    s.stack[j].toNat % 2 = 0 ∧ 2 ≤ s.stack[j].toNat ∧ s.stack[j].toNat ≤ 0x1000
  /-- While a key is awaited, PC is just after the FX0A that awaits it (45_input_timers.md R215, R216). -/
  waiting : ∀ x, s.wait = .awaitingKey x →
    s.pc.toNat % 2 = 0 ∧ 2 ≤ s.pc.toNat ∧ s.pc.toNat ≤ 0x1000 ∧
      s.mem.wordAt (s.pc.toNat - 2) = encode (.ldVxK x)

/-! ## Recorded faults -/

/-- The record is one 60_exceptions.md R240 gives for a cycle that faults in `s`: the address, the word if it was fetched,
and a kind whose condition holds of `s`. -/
def FaultRecord.Explained (f : FaultRecord) (s : State) : Prop :=
  f.pc = some s.pc ∧
    match f.kind with
    | .unrecognizedInstruction => f.word = some s.nextWord ∧ ∀ e ∈ dispatchTable, e.matches s.nextWord = false
    | .stackOverflow => f.word = some s.nextWord ∧ s.sp.val = 16 ∧ ∃ nnn, decode s.nextWord = .ok (.call nnn)
    | .stackUnderflow => f.word = some s.nextWord ∧ s.sp.val = 0 ∧ ∃ x, decode s.nextWord = .ok (.ret x)
    | .outOfRangeAddress .fetch a => f.word = none ∧ a = s.pc.toNat ∧ 0xFFE < a
    | .outOfRangeAddress .read a => f.word = some s.nextWord ∧ 0xFFF < a ∧ s.i.toNat ≤ a ∧ a ≤ s.i.toNat + 15 ∧
        ((∃ x y n, decode s.nextWord = .ok (.drw x y n)) ∨ ∃ x, decode s.nextWord = .ok (.ldVxMem x))
    | .outOfRangeAddress .write a => f.word = some s.nextWord ∧ 0xFFF < a ∧ s.i.toNat ≤ a ∧ a ≤ s.i.toNat + 15 ∧
        ((∃ x, decode s.nextWord = .ok (.ldBVx x)) ∨ ∃ x, decode s.nextWord = .ok (.ldMemVx x))
    | .misalignedFetch => f.word = none ∧ s.pc.toNat % 2 = 1 ∧ s.pc.toNat ≤ 0xFFE
    | .fontRegionWrite a => f.word = some s.nextWord ∧ a ≤ 0x04F ∧ s.i.toNat ≤ a ∧ a ≤ s.i.toNat + 15 ∧
        ((∃ x, decode s.nextWord = .ok (.ldBVx x)) ∨ ∃ x, decode s.nextWord = .ok (.ldMemVx x))
    | .keyIndexOutOfRange b => f.word = some s.nextWord ∧ 0xF < b.toNat ∧
        ∃ x, s.readV x = b ∧ (decode s.nextWord = .ok (.skp x) ∨ decode s.nextWord = .ok (.sknp x))
    | .programLoadFailure => False

end Sys2Proof.Machine
end

