-- ==== Sys2Proof/Certificates/Slice0/Obligations.lean ====
section
/-! DEFINITION. The statements for the provers. Each docstring names the rules or sections of spec/ it formalises. -/

open Sys2Proof Sys2Proof.Machine

/-- For every word, op, X, Y, N, NNN and KK are its bits 15:12, 11:8, 7:4, 3:0, 11:0 and 7:0 as unsigned numbers, and decoding 0xD123 gives X=1, Y=2, N=3, NNN=0x123, KK=0x23. (R72) -/
def Obligations.DecoderFieldsAreWordBits : Prop :=
  (∀ w : Word, (opOf w).toNat = w.toNat / 4096 ∧ (xOf w).toNat = w.toNat / 256 % 16 ∧ (yOf w).toNat = w.toNat / 16 % 16 ∧
    (nOf w).toNat = w.toNat % 16 ∧ (nnnOf w).toNat = w.toNat % 4096 ∧ (kkOf w).toNat = w.toNat % 256) ∧
  xOf 0xD123 = 0x1 ∧ yOf 0xD123 = 0x2 ∧ nOf 0xD123 = 0x3 ∧ nnnOf 0xD123 = 0x123 ∧ kkOf 0xD123 = 0x23

/-- Twelve words, one or more of every family, decode to the instruction they stand for. The patterns of DRW, JP, CALL, RET and ADD are the source's; the others are the conventional ones (log 11). (30_encoding.md section 3, the entries of the dispatch table) -/
def Obligations.WrittenOutWordsDecode : Prop :=
  decode 0xD123 = .ok (.drw 0x1 0x2 0x3) ∧ decode 0x1ABC = .ok (.jp 0xABC) ∧ decode 0x2ABC = .ok (.call 0xABC) ∧
  decode 0x00EE = .ok (.ret 0x0) ∧ decode 0x8124 = .ok (.addReg 0x1 0x2) ∧ decode 0x0AE0 = .ok (.cls 0xA) ∧
  decode 0x5AB7 = .ok (.seReg 0xA 0xB 0x7) ∧ decode 0x6A2A = .ok (.ldImm 0xA 0x2A) ∧ decode 0xA300 = .ok (.ldI 0x300) ∧
  decode 0xE29E = .ok (.skp 0x2) ∧ decode 0xF20A = .ok (.ldVxK 0x2) ∧ decode 0xF133 = .ok (.ldBVx 0x1)

/-- For every instruction, with every operand at every value its fields admit and the bits no handler reads included, decoding its word gives it back, and decoding its two bytes followed by any bytes gives it and those bytes. It rests on the conventional encodings of log 11. (30_encoding.md sections 1 to 3: the formats, the decoder and the dispatch table) -/
def Obligations.DecodeOfEncodeIsTheInstruction : Prop :=
  (∀ i : Instr, decode (encode i) = .ok i) ∧
  ∀ (i : Instr) (rest : List Byte), decodeBytes (encodeBytes i ++ rest) = .ok (i, rest)

/-- For every word and instruction, if the word decodes to the instruction then encoding the instruction gives the word: no bit of a legal word is lost. It holds because a term keeps the bits that no handler reads, the model's reading of log 1 (DEDUCED), and it rests on the conventional encodings of log 11. (30_encoding.md sections 1 to 3: the formats, the decoder and the dispatch table) -/
def Obligations.EncodeOfDecodeIsTheWord : Prop :=
  ∀ (w : Word) (i : Instr), decode w = .ok i → encode i = w

/-- For every word, decoding gives what the handler of the first matching entry of the 34-entry dispatch table builds from the word's fields, and rejects the word by name when no entry matches. The per-entry criterion is the spec's decision D1 (log 33). (30_encoding.md section 3, the matching rule and the entries, 92_eei_decisions.md D1) -/
def Obligations.DecodeIsFirstMatchInTheTable : Prop :=
  dispatchTable.length = 34 ∧
  ∀ w : Word, decode w = match dispatch w with
    | some e => .ok (e.build w)
    | none => .error (.unrecognizedInstruction w)

/-- For every entry of the dispatch table and every word, the two matching conditions hold exactly when the word under the entry's mask is the entry's pattern (decision D1, log 33). (30_encoding.md section 3, the matching rule, 92_eei_decisions.md D1) -/
def Obligations.TableMatchIsMaskAndMatch : Prop :=
  ∀ e ∈ dispatchTable, ∀ w : Word, e.matches w = true ↔ w &&& e.mask = e.pattern

/-- For every word, two positions of the dispatch table whose entries both match it are the same position, so the result does not depend on the table's order. (30_encoding.md section 3, 'no word matches two entries') -/
def Obligations.AtMostOneEntryMatches : Prop :=
  ∀ (w : Word) (j k : Nat) (hj : j < dispatchTable.length) (hk : k < dispatchTable.length),
    dispatchTable[j].matches w = true → dispatchTable[k].matches w = true → j = k

/-- A word is rejected exactly when its top nibble is 0 with a low byte other than E0 and EE, or 8 with a low nibble 8 to D or F, or E with a low byte other than 9E and A1, or F with a low byte outside the nine listed ones. (30_encoding.md section 3, 'the illegal words are exactly these') -/
def Obligations.IllegalWordsAreExactly : Prop :=
  ∀ w : Word, decode w = .error (.unrecognizedInstruction w) ↔
    (w.toNat / 4096 = 0x0 ∧ w.toNat % 256 ≠ 0xE0 ∧ w.toNat % 256 ≠ 0xEE) ∨
    (w.toNat / 4096 = 0x8 ∧ 0x8 ≤ w.toNat % 16 ∧ w.toNat % 16 ≠ 0xE) ∨
    (w.toNat / 4096 = 0xE ∧ w.toNat % 256 ≠ 0x9E ∧ w.toNat % 256 ≠ 0xA1) ∨
    (w.toNat / 4096 = 0xF ∧ w.toNat % 256 ∉ [0x07, 0x0A, 0x15, 0x18, 0x1E, 0x29, 0x33, 0x55, 0x65])

/-- In a core ready to fetch whose bytes at PC decode to an instruction, step is exec of it in the entry state (keys sampled, strobe cleared, PC plus 2). If that next state has not faulted, both timers then tick, tone is evaluated and the host's turn is over; if it has, only HALT of the starting state changes. The faulting case is decision D18 (log 18) and tone after the tick is D24 (log 35). That a completed cycle ends the host's turn, and that a faulting one takes none, is the model's choice of log 4. (Every handler answers a next state: OnlyAHaltedCoreStops.) (40_step_engine.md section 2, the whole cycle as one function, 92_eei_decisions.md D16, D18, D24) -/
def Obligations.StepRunsTheDecodedInstruction : Prop :=
  ∀ (s : State) (i : Instr), s.ReadyToFetch → decode s.nextWord = .ok i →
    (∀ t, exec i s.entry = .next t → t.halt = none → step s = .next
      { t with
        dt := BitVec.ofNat 8 (t.dt.toNat - 1), st := BitVec.ofNat 8 (t.st.toNat - 1), tone := decide (t.st.toNat > 1)
        hostScript := t.hostScript.tail, hostClock := t.hostClock + 1 }) ∧
    (∀ t f, exec i s.entry = .next t → t.halt = some f → step s = .next { s with halt := some f })

/-- For a table word that decodes to an instruction, the state with it placed is ready to fetch, its bytes at PC decode to it, only PC, memory, WAIT and HALT differ from the given state, PC is kept wherever the fetch checks accept it, whatever WAIT and HALT are, and every other byte of memory is unchanged. The model's choice of log 16. (20_memory.md section 2, instruction fetch is big-endian, 40_step_engine.md section 2, the fetch) -/
def Obligations.PlacedInstructionIsFetchedNext : Prop :=
  ∀ (s : State) (nbits w : Nat) (i : Instr), s.mem.wf → decodeTableWord nbits w = some i →
    let p := s.withFetchWord nbits w
    p.ReadyToFetch ∧ decode p.nextWord = .ok i ∧
      p = { s with pc := p.pc, mem := p.mem, wait := .running, halt := none } ∧
      (fetchCheck oddFetch s.pc = none → p.pc = s.pc) ∧
      ∀ a, a ≠ p.pc.toNat → a ≠ p.pc.toNat + 1 → p.readMem a = s.readMem a

/-- A running core whose PC is above 0xFFE enters HALT = Fault(OutOfRangeAddress(fetch, PC), PC), odd or even; one whose PC is odd and at most 0xFFE enters HALT = Fault(MisalignedFetch, PC) under P_ODD_FETCH = fault; no word is recorded and nothing else changes; under fetch no PC up to 0xFFE fails the checks (decisions D9, D11, D26; log 9, 36). The record without a word, and that nothing else changes, KEYS and display_changed included, are decision D18 (log 18). (40_step_engine.md section 2, fetch range, fetch alignment and a faulting cycle, 92_eei_decisions.md D9, D11, D18, D26) -/
def Obligations.FetchChecksComeFirstAndInOrder : Prop :=
  (∀ s : State, s.halt = none → s.wait = .running → 0xFFE < s.pc.toNat →
    step s = .next (s.halted (.outOfRangeAddress .fetch s.pc.toNat) none)) ∧
  (∀ s : State, s.halt = none → s.wait = .running → s.pc.toNat ≤ 0xFFE → s.pc.toNat % 2 = 1 →
    step s = .next (s.halted .misalignedFetch none)) ∧
  ∀ pc : Word, pc.toNat ≤ 0xFFE → fetchCheck .fetch pc = none

/-- A core ready to fetch whose word at PC matches no entry of the dispatch table enters HALT = Fault(UnrecognizedInstruction, PC, word) with nothing else changed, and has no step after it; a word with top nibble 0 whose low byte is neither 0xE0 nor 0xEE matches no entry. The record and that nothing else changes are decision D18 (log 18), which words match an entry is D1 (log 33), and the form of the stop is the model's choice of log 3. (60_exceptions.md section 1, UnrecognizedInstruction, and section 2, fault entry and precision, 30_encoding.md section 3, a word that matches no entry, 92_eei_decisions.md D1, D18) -/
def Obligations.UnrecognizedWordIsFatal : Prop :=
  (∀ s : State, s.ReadyToFetch → (∀ e ∈ dispatchTable, e.matches s.nextWord = false) →
    step s = .next (s.halted .unrecognizedInstruction (some s.nextWord)) ∧
    ∀ t, step (s.halted .unrecognizedInstruction (some s.nextWord)) ≠ .next t) ∧
  ∀ w : Word, w.toNat / 4096 = 0x0 → w.toNat % 256 ≠ 0xE0 → w.toNat % 256 ≠ 0xEE →
    ∀ e ∈ dispatchTable, e.matches w = false

/-- A step answers a next state exactly when HALT is none; with HALT set it answers the fault halted with the record; no step is refused; every handler answers a next state. That a halted core's step is a fault named halted is the model's choice (log 3), and so is that a core AwaitingKey has a step when its host turn brings no edge, where the spec has none (log 5). (40_step_engine.md section 1, when a cycle step exists, 60_exceptions.md section 2, fault entry) -/
def Obligations.OnlyAHaltedCoreStops : Prop :=
  (∀ s : State, (∃ t, step s = .next t) ↔ s.halt = none) ∧
  (∀ (s : State) (f : FaultRecord), s.halt = some f → step s = .fault (.halted f)) ∧
  (∀ (s : State) (r : Refusal), step s ≠ .refused r) ∧
  ∀ (i : Instr) (s : State), ∃ t, exec i s = .next t

/-- If a step ends with HALT set, the state it leaves is the state it started in with only HALT changed: no register, memory byte, stack slot, cell, timer, key sample or output has changed, and PC holds the faulting instruction's address (decision D18; log 18). (60_exceptions.md section 2, precision, 40_step_engine.md section 2, a faulting cycle, 92_eei_decisions.md D18) -/
def Obligations.FaultsArePrecise : Prop :=
  ∀ s s' : State, step s = .next s' → s'.halt ≠ none → s' = { s with halt := s'.halt }

/-- If a step ends with HALT set, the record holds PC, the fetched word unless the fetch failed, and a kind whose condition holds of the state: no matching entry, SP = 16 at a call, SP = 0 at a return, an address above the bound reached from I by the instructions that can, an odd PC, a font address, a key value above 0xF (decision D18; log 18, 22). (60_exceptions.md section 1, the table of fault kinds, 92_eei_decisions.md D18) -/
def Obligations.FaultRecordsAreExplained : Prop :=
  ∀ (s s' : State) (f : FaultRecord), step s = .next s' → s'.halt = some f → f.Explained s

/-- In a completed cycle DT and ST each end one below what the handler left, or at 0; in a faulting cycle and in a step while AwaitingKey both keep their values. (R255) -/
def Obligations.TimersTickOncePerCompletedCycle : Prop :=
  ∀ s s' : State, step s = .next s' →
    (∀ i t, s.wait = .running → decode s.nextWord = .ok i → exec i s.entry = .next t → s'.halt = none →
      s'.dt.toNat = t.dt.toNat - 1 ∧ s'.st.toNat = t.st.toNat - 1) ∧
    (s'.halt ≠ none → s'.dt = s.dt ∧ s'.st = s.st) ∧
    ∀ x, s.wait = .awaitingKey x → s'.dt = s.dt ∧ s'.st = s.st

/-- After a completed cycle the presentation sink receives the whole display exactly when the instruction was DXYN or 00E0, and nothing otherwise; the audio gate receives ST > 0 with ST after the tick (decision D24; log 19, 35). (40_step_engine.md sections 2 and 4, cycle outputs, 92_eei_decisions.md D24) -/
def Obligations.OutputsOfACompletedCycle : Prop :=
  ∀ (s s' : State) (i : Instr), step s = .next s' → s.wait = .running → decode s.nextWord = .ok i → s'.halt = none →
    (i.Draws → s.presented s' = some s'.disp) ∧ (¬ i.Draws → s.presented s' = none) ∧
      s'.audioGate = decide (s'.st.toNat > 0)

/-- After a completed cycle KEYS is the host's key vector of that turn, and SKP and SKNP of the same cycle skipped by it; a step while AwaitingKey leaves KEYS as it was. A faulting cycle leaves KEYS as it was too (decision D18; log 18). (40_step_engine.md section 2, key sampling and a faulting cycle, 92_eei_decisions.md D18) -/
def Obligations.KeysAreSampledEachCycle : Prop :=
  ∀ s s' : State, step s = .next s' →
    (s.wait = .running → s'.halt = none → s'.keys = s.hostTurn.keys) ∧
    (s'.halt ≠ none → s'.keys = s.keys) ∧ (∀ x, s.wait = .awaitingKey x → s'.keys = s.keys) ∧
    (∀ x, s.wait = .running → s'.halt = none → decode s.nextWord = .ok (.skp x) →
      s'.pc = if s.hostTurn.keys.getLsbD (s.readV x).toNat then s.pc + 4 else s.pc + 2) ∧
    ∀ x, s.wait = .running → s'.halt = none → decode s.nextWord = .ok (.sknp x) →
      s'.pc = if s.hostTurn.keys.getLsbD (s.readV x).toNat then s.pc + 2 else s.pc + 4

/-- In a core awaiting a key into V[x], a host turn with an edge of key k gives V[x] = k and WAIT = Running and changes nothing else of the core: PC, timers, memory, display, keys and outputs stay; a turn without an edge changes nothing of the core at all (decisions D16, D24; log 31, 35; that such a turn is a step is the model's choice, log 5). (45_input_timers.md section 3, suspension and the key-edge step, 92_eei_decisions.md D16, D24) -/
def Obligations.AWaitEndsByItsEdgeAlone : Prop :=
  (∀ (s : State) (x k : Nibble), s.WaitingFor x → s.hostTurn.edge = some k →
    ∃ t, step s = .next t ∧ (∀ r, t.readV r = if r = x then BitVec.ofNat 8 k.toNat else s.readV r) ∧ t.wait = .running ∧
      { t with v := s.v, wait := s.wait, hostScript := s.hostScript, hostClock := s.hostClock } = s) ∧
  ∀ (s : State) (x : Nibble), s.WaitingFor x → s.hostTurn.edge = none →
    step s = .next { s with hostScript := s.hostScript.tail, hostClock := s.hostClock + 1 }

/-- While WAIT = Running the key-edge step changes nothing, and a completed cycle ends in the same state whatever edge its host turn carries (decision D16; log 31; that an edge and a cycle share a turn is the model's choice, log 6). (45_input_timers.md section 3, an edge while Running, 92_eei_decisions.md D16) -/
def Obligations.EdgesWhileRunningAreDropped : Prop :=
  (∀ (s : State) (k : Nibble), s.wait = .running → s.keyEdge k = s) ∧
  ∀ (s t : State) (keys : BitVec 16) (r : Byte) (e e' : Option Nibble) (rest : List HostTurn), s.wait = .running →
    step { s with hostScript := ⟨keys, r, e⟩ :: rest } = .next t → t.halt = none →
    step { s with hostScript := ⟨keys, r, e'⟩ :: rest } = .next t

/-- A step from Running into AwaitingKey(x) ran an FX0A naming x; a step out of AwaitingKey took a key-down edge of its host turn and ends Running; WAIT is Running at reset. (R31) -/
def Obligations.OnlyFX0AEntersTheWaitOnlyAnEdgeLeavesIt : Prop :=
  (∀ (s s' : State) (x : Nibble), step s = .next s' → s.wait = .running → s'.wait = .awaitingKey x →
    decode s.nextWord = .ok (.ldVxK x)) ∧
  (∀ (s s' : State) (x : Nibble), step s = .next s' → s.wait = .awaitingKey x → s'.wait ≠ .awaitingKey x →
    s'.wait = .running ∧ ∃ k, s.hostTurn.edge = some k) ∧
  State.reset.wait = .running

/-- If a step leaves the display changed, the core was Running and the word at PC decodes to DXYN or 00E0 (decision D3; log 12). (10_state.md section 6, 92_eei_decisions.md D3) -/
def Obligations.OnlyDrawAndClearChangeTheDisplay : Prop :=
  ∀ s s' : State, step s = .next s' → s'.disp ≠ s.disp →
    s.wait = .running ∧ ∃ i, decode s.nextWord = .ok i ∧ i.Draws

/-- If an instruction leaves VF changed, it is one of 8XY4, 8XY5, 8XY6, 8XY7, 8XYE, DXYN and FX1E, or its destination V[x] has x = F; if it leaves another register changed, that register is its destination V[x], or is one of V0 to V[x] of an FX65. (10_state.md section 1, who can write V0 to VF and the writers of VF) -/
def Obligations.OnlyDestinationsAndFlagsAreWritten : Prop :=
  (∀ (i : Instr) (s t : State), exec i s = .next t → t.readV 0xF ≠ s.readV 0xF → i.WritesFlag ∨ i.HasDestination 0xF) ∧
  ∀ (i : Instr) (s t : State) (r : Nibble), exec i s = .next t → r ≠ 0xF → t.readV r ≠ s.readV r →
    i.HasDestination r ∨ ∃ x, i = .ldVxMem x ∧ r.toNat ≤ x.toNat

/-- In a canonical memory, if an instruction leaves a byte changed, it is FX33 and the byte is one of the three from the data base, or FX55 naming V[x] and the byte is one of the x + 1 from the data base. (20_memory.md section 5, the bytes each instruction moves) -/
def Obligations.OnlyStoresChangeMemory : Prop :=
  ∀ (i : Instr) (s t : State) (a : Nat), s.mem.wf → exec i s = .next t → t.readMem a ≠ s.readMem a →
    (∃ x, i = .ldBVx x ∧ s.dataBase ≤ a ∧ a < s.dataBase + 3) ∨
      ∃ x, i = .ldMemVx x ∧ s.dataBase ≤ a ∧ a < s.dataBase + (x.toNat + 1)

/-- In a canonical memory, every byte at 0x000 to 0x04F reads after a step as before it, under P_FONT_WRITE = fault; under write the check lets every address of the space through (decision D10, log 8). (20_memory.md section 6, the font table is immutable, 92_eei_decisions.md D10) -/
def Obligations.FontTableIsNeverWritten : Prop :=
  (∀ (s s' : State) (a : Nat), s.mem.wf → step s = .next s' → a ≤ 0x04F → s'.readMem a = s.readMem a) ∧
  ∀ a ≤ 0xFFF, writeCheck .write a = none

/-- If an instruction leaves I changed it is ANNN, FX1E or FX29; DT: FX15; ST: FX18; SP or a slot: 2NNN or 00EE; WAIT: FX0A. No instruction changes KEYS or tone. (10_state.md sections 4, 7 and 8) -/
def Obligations.SpecialRegistersHaveTheirOwnWriters : Prop :=
  ∀ (i : Instr) (s t : State), exec i s = .next t →
    (t.i ≠ s.i → (∃ nnn, i = .ldI nnn) ∨ (∃ x, i = .addIVx x) ∨ ∃ x, i = .ldFVx x) ∧
    (t.dt ≠ s.dt → ∃ x, i = .ldDtVx x) ∧ (t.st ≠ s.st → ∃ x, i = .ldStVx x) ∧
    (t.sp ≠ s.sp → (∃ nnn, i = .call nnn) ∨ ∃ x, i = .ret x) ∧ (t.stack ≠ s.stack → ∃ nnn, i = .call nnn) ∧
    (t.wait ≠ s.wait → ∃ x, i = .ldVxK x) ∧ t.keys = s.keys ∧ t.tone = s.tone

/-- The reset state's memory is canonical, its tone agrees with ST, and it holds no return address and awaits no key. It rests on the reset values of decision D17 (log 13). (70_reset_and_hazards.md section 1, 92_eei_decisions.md D17) -/
def Obligations.ResetSatisfiesTheInvariant : Prop :=
  State.reset.Inv

/-- From every state that meets the invariant (memory canonical and inside the address space, tone = (ST > 0), every return address in use even and from 2 to 0x1000, and while a key is awaited PC just after the FX0A that awaits it), a step that answers a next state answers one that meets it. That return addresses and the waiting PC are even rests on P_ODD_FETCH = fault (decision D11; log 9), and tone = (ST > 0) on when tone is evaluated (decision D24; log 35). (20_memory.md sections 1 and 6, 41_control_flow.md, CALL and RET, 45_input_timers.md section 3, 60_exceptions.md section 4, 92_eei_decisions.md D11, D24) -/
def Obligations.StepKeepsTheInvariant : Prop :=
  ∀ s s' : State, s.Inv → step s = .next s' → s'.Inv

/-- From a state spinning at a, the step is a next state spinning at a, in which only DT, ST, KEYS, the two outputs and the model's own host fields can differ (decision D27; log 43). (40_step_engine.md section 3, outcome (b), 92_eei_decisions.md D27) -/
def Obligations.SpinningChangesOnlyTimersAndKeys : Prop :=
  ∀ (s : State) (a : Word), s.SpinningAt a → ∃ t, step s = .next t ∧ t.SpinningAt a ∧
    { t with
      dt := s.dt, st := s.st, keys := s.keys, displayChanged := s.displayChanged, tone := s.tone
      hostScript := s.hostScript, hostClock := s.hostClock } = s

/-- After reset every V register, I, SP, the slots, DT, ST and KEYS are 0, PC is 0x200, every cell is clear, WAIT is Running, HALT is none, both outputs are 0, the font table reads, glyph by glyph, as the 80 bytes the spec lists, and every other byte as 0. The values are the spec's decisions D4 and D17 (log 10, 13). (70_reset_and_hazards.md section 1, the reset table, 92_eei_decisions.md D4, D17, 10_state.md section 5, the glyph table) -/
def Obligations.ResetStateIsAsListed : Prop :=
  (∀ r, State.reset.readV r = 0x00) ∧ State.reset.i = 0x0000 ∧ State.reset.pc = 0x0200 ∧ State.reset.sp = 0 ∧
  (∀ (j : Nat) (h : j < 16), State.reset.stack[j] = 0x0000) ∧ State.reset.dt = 0x00 ∧ State.reset.st = 0x00 ∧
  (∀ glyph ∈ ([
     (0x000, [0xF0, 0x90, 0x90, 0x90, 0xF0]), (0x005, [0x20, 0x60, 0x20, 0x20, 0x70]),
     (0x00A, [0xF0, 0x10, 0xF0, 0x80, 0xF0]), (0x00F, [0xF0, 0x10, 0xF0, 0x10, 0xF0]),
     (0x014, [0x90, 0x90, 0xF0, 0x10, 0x10]), (0x019, [0xF0, 0x80, 0xF0, 0x10, 0xF0]),
     (0x01E, [0xF0, 0x80, 0xF0, 0x90, 0xF0]), (0x023, [0xF0, 0x10, 0x20, 0x40, 0x40]),
     (0x028, [0xF0, 0x90, 0xF0, 0x90, 0xF0]), (0x02D, [0xF0, 0x90, 0xF0, 0x10, 0xF0]),
     (0x032, [0xF0, 0x90, 0xF0, 0x90, 0x90]), (0x037, [0xE0, 0x90, 0xE0, 0x90, 0xE0]),
     (0x03C, [0xF0, 0x80, 0x80, 0x80, 0xF0]), (0x041, [0xE0, 0x90, 0x90, 0x90, 0xE0]),
     (0x046, [0xF0, 0x80, 0xF0, 0x80, 0xF0]), (0x04B, [0xF0, 0x80, 0xF0, 0x80, 0x80])] : List (Nat × List Byte)),
    State.reset.mem.load glyph.1 5 = glyph.2) ∧
  (∀ a, 0x050 ≤ a → State.reset.readMem a = 0x00) ∧ (∀ c r, State.reset.disp.cell c r = false) ∧
  State.reset.keys = 0 ∧ State.reset.wait = .running ∧ State.reset.halt = none ∧
  State.reset.displayChanged = false ∧ State.reset.tone = false

/-- After start-up with an image, byte k of the image stands at 0x200 + k for every k below both the image's length and 3584, every other byte is as after reset, the memory is canonical, and nothing but memory differs from reset. (70_reset_and_hazards.md section 1, program load, 40_step_engine.md section 4, program-image loader) -/
def Obligations.BootLoadsTheImage : Prop :=
  ∀ image : List Byte,
    (∀ (k : Nat) (h : k < image.length), k < 3584 → (boot (some image)).readMem (0x200 + k) = image[k]) ∧
    (∀ a, (a < 0x200 ∨ 0x200 + min image.length 3584 ≤ a) → (boot (some image)).readMem a = State.reset.readMem a) ∧
    (boot (some image)).mem.wf ∧ { boot (some image) with mem := [] } = State.reset

/-- Start-up with a missing or unreadable file leaves HALT = Fault(ProgramLoadFailure), no step of it is a next state, and the process's status is EXIT_CODE(ProgramLoadFailure). (R272) -/
def Obligations.LoadFailureRunsNoCycle : Prop :=
  (∃ f, (boot none).halt = some f ∧ f.kind = .programLoadFailure) ∧ (∀ t, step (boot none) ≠ .next t) ∧
  (boot none).exitStatus = some (exitCode .programLoadFailure)

/-- The exit code of every fault kind is non-zero, and those of ProgramLoadFailure and UnrecognizedInstruction differ, whatever the open parameter is (decision D20, log 20); a core has an exit status exactly when it has faulted. (60_exceptions.md section 5, exit status, 92_eei_decisions.md D20) -/
def Obligations.ExitCodesAreDistinctAndNonZero : Prop :=
  (∀ kind, exitCode kind ≠ 0) ∧ exitCode .programLoadFailure ≠ exitCode .unrecognizedInstruction ∧
  ∀ s : State, s.exitStatus.isSome = true ↔ s.Faulted

/-- 3XKK skips the next word when V[x] = kk and 4XKK when V[x] ≠ kk; PC moves by 2 more or not at all and nothing else changes; the encodings; a skip from an address of 0xFFC up to 0xFFE leaves a PC the next fetch faults at (decisions D11, D25; log 40). The encodings are decision D2 (log 11, PRESUMED). (41_control_flow.md, SE Vx, kk and SNE Vx, kk, 92_eei_decisions.md D2, D11, D25) -/
def Obligations.ImmediateSkips : Prop :=
  EncodedBy 0xF000 0x3000 (fun w => .seImm (xOf w) (kkOf w)) ∧ EncodedBy 0xF000 0x4000 (fun w => .sneImm (xOf w) (kkOf w)) ∧
  ∀ (x : Nibble) (kk : Byte) (s : State),
    exec (.seImm x kk) s = .next { s with pc := if s.readV x = kk then s.pc + 2 else s.pc } ∧
    exec (.sneImm x kk) s = .next { s with pc := if s.readV x = kk then s.pc else s.pc + 2 } ∧
    (0xFFE ≤ s.pc.toNat → s.pc.toNat ≤ 0x1000 →
      fetchCheck oddFetch (s.pc + 2) = some (.outOfRangeAddress .fetch (s.pc.toNat + 2)))

/-- 5XYN skips the next word when V[x] = V[y] and 9XYN when they differ, for every N; PC moves by 2 more or not at all and nothing else changes; x = y always skips in 5XYN and never in 9XYN (that every N is admitted is decision D1, log 33; the encodings are D2, log 11). (41_control_flow.md, SE Vx, Vy and SNE Vx, Vy, 92_eei_decisions.md D1, D2) -/
def Obligations.RegisterSkips : Prop :=
  EncodedBy 0xF000 0x5000 (fun w => .seReg (xOf w) (yOf w) (nOf w)) ∧
  EncodedBy 0xF000 0x9000 (fun w => .sneReg (xOf w) (yOf w) (nOf w)) ∧
  ∀ (x y n : Nibble) (s : State),
    exec (.seReg x y n) s = .next { s with pc := if s.readV x = s.readV y then s.pc + 2 else s.pc } ∧
    exec (.sneReg x y n) s = .next { s with pc := if s.readV x = s.readV y then s.pc else s.pc + 2 }

/-- 1NNN leaves PC = nnn zero-extended and changes nothing else; its encoding; with an odd nnn the next fetch faults under P_ODD_FETCH = fault. (R132) -/
def Obligations.JumpSetsPC : Prop :=
  EncodedBy 0xF000 0x1000 (fun w => .jp (nnnOf w)) ∧
  ∀ (nnn : Imm12) (s : State), exec (.jp nnn) s = .next { s with pc := BitVec.ofNat 16 nnn.toNat } ∧
    (nnn.toNat % 2 = 1 → fetchCheck .fault (BitVec.ofNat 16 nnn.toNat) ≠ none)

/-- BNNN leaves PC = nnn + V0 as an exact sum, which is at most 0x10FE, and changes nothing else; its encoding; above 0xFFE the next fetch faults (decision D25, log 40; the encoding is D2, log 11). (41_control_flow.md, JP V0, nnn, 92_eei_decisions.md D25, D2) -/
def Obligations.IndexedJumpAddsV0 : Prop :=
  EncodedBy 0xF000 0xB000 (fun w => .jpV0 (nnnOf w)) ∧
  ∀ (nnn : Imm12) (s : State), ∃ t, exec (.jpV0 nnn) s = .next t ∧ t.pc.toNat = nnn.toNat + (s.readV 0x0).toNat ∧
    { t with pc := s.pc } = s ∧
    (0xFFE < t.pc.toNat → fetchCheck oddFetch t.pc = some (.outOfRangeAddress .fetch t.pc.toNat))

/-- 2NNN with SP below 16 puts PC, the address after the call, in slot SP, adds 1 to SP and leaves PC = nnn; no other slot and nothing else changes; its encoding (decision D12; log 32). (41_control_flow.md, CALL nnn, 92_eei_decisions.md D12) -/
def Obligations.CallPushesTheReturnAddress : Prop :=
  EncodedBy 0xF000 0x2000 (fun w => .call (nnnOf w)) ∧
  ∀ (nnn : Imm12) (s : State), s.sp.val < 16 → ∃ t, exec (.call nnn) s = .next t ∧
    t.pc = BitVec.ofNat 16 nnn.toNat ∧ t.sp.val = s.sp.val + 1 ∧
    (∀ (j : Nat) (h : j < 16), t.stack[j] = if j = s.sp.val then s.pc else s.stack[j]) ∧
    { t with pc := s.pc, sp := s.sp, stack := s.stack } = s

/-- 00EE with SP above 0 takes 1 from SP and leaves PC = the slot below, with no 2 added; the slots and everything else stay; its encoding, for every value of bits 11:8 (decision D12; log 32). (41_control_flow.md, RET, 92_eei_decisions.md D12) -/
def Obligations.ReturnPopsIntoPC : Prop :=
  EncodedBy 0xF0FF 0x00EE (fun w => .ret (xOf w)) ∧
  ∀ (x : Nibble) (s : State) (k : Nat) (h : k < 16), s.sp.val = k + 1 → ∃ t, exec (.ret x) s = .next t ∧
    t.pc = s.stack[k] ∧ t.sp.val = k ∧ { t with pc := s.pc, sp := s.sp } = s

/-- After a call completes, a return run in any later state in which SP is as the call left it and the slots in use agree gives back the PC the call was entered with, which is the address after the call, and the SP from before the call, whatever PC, registers, timers, memory and the host's side have become (decision D12; log 32). (95_test_vectors.md S3, 41_control_flow.md, CALL nnn and RET, 92_eei_decisions.md D12) -/
def Obligations.CallThenReturnResumesAfterTheCall : Prop :=
  ∀ (nnn : Imm12) (x : Nibble) (s t later : State), s.sp.val < 16 → exec (.call nnn) s = .next t → later.sp = t.sp →
    (∀ (j : Nat) (h : j < 16), j < t.sp.val → later.stack[j] = t.stack[j]) →
    ∃ u, exec (.ret x) later = .next u ∧ u.pc = s.pc ∧ u.sp = s.sp

/-- A cycle that runs 2NNN with SP = 16 enters HALT = Fault(StackOverflow, PC, word), one that runs 00EE with SP = 0 enters HALT = Fault(StackUnderflow, PC, word); nothing else changes, so no adjacent state is corrupted, and no step follows. The record and that nothing else changes are decision D18 (log 18), SP as a count with 16 full is D12 (log 32), and the form of the stop is the model's choice of log 3. (41_control_flow.md, CALL and RET, 60_exceptions.md section 1, StackOverflow and StackUnderflow, and section 2, fault entry and precision, 92_eei_decisions.md D12, D18) -/
def Obligations.StackFaultsAreFatal : Prop :=
  ∀ (s : State), s.ReadyToFetch →
    (∀ nnn, decode s.nextWord = .ok (.call nnn) → s.sp.val = 16 →
      step s = .next (s.halted .stackOverflow (some s.nextWord)) ∧
      ∀ t, step (s.halted .stackOverflow (some s.nextWord)) ≠ .next t) ∧
    ∀ x, decode s.nextWord = .ok (.ret x) → s.sp.val = 0 →
      step s = .next (s.halted .stackUnderflow (some s.nextWord)) ∧
      ∀ t, step (s.halted .stackUnderflow (some s.nextWord)) ≠ .next t

/-- 6XKK leaves V[x] = kk and 7XKK leaves V[x] = V[x] + kk modulo 256 with no flag; no other register, VF included when x is not F, and nothing else changes; the encodings, which are decision D2 (log 11, PRESUMED). (42_alu.md section 1, LD Vx, kk and ADD Vx, kk, 92_eei_decisions.md D2) -/
def Obligations.ImmediateMoveAndAdd : Prop :=
  EncodedBy 0xF000 0x6000 (fun w => .ldImm (xOf w) (kkOf w)) ∧ EncodedBy 0xF000 0x7000 (fun w => .addImm (xOf w) (kkOf w)) ∧
  ∀ (x : Nibble) (kk : Byte) (s : State),
    s.RegistersBecome (.ldImm x kk) (fun r => if r = x then kk else s.readV r) ∧
    s.RegistersBecome (.addImm x kk) (fun r =>
      if r = x then BitVec.ofNat 8 ((s.readV x).toNat + kk.toNat) else s.readV r)

/-- 8XY0 to 8XY3 leave V[x] = V[y], V[x] or V[y], V[x] and V[y], V[x] xor V[y]; no other register and nothing else changes, so VF is untouched when x is not F; x = y leaves V[x] unchanged for the first three and zeroes it for XOR; the encodings, which are decision D2 (log 11, PRESUMED). (42_alu.md section 2, LD, OR, AND and XOR Vx, Vy, 92_eei_decisions.md D2) -/
def Obligations.CopyAndBitwiseLeaveVF : Prop :=
  EncodedBy 0xF00F 0x8000 (fun w => .ldReg (xOf w) (yOf w)) ∧ EncodedBy 0xF00F 0x8001 (fun w => .orReg (xOf w) (yOf w)) ∧
  EncodedBy 0xF00F 0x8002 (fun w => .andReg (xOf w) (yOf w)) ∧ EncodedBy 0xF00F 0x8003 (fun w => .xorReg (xOf w) (yOf w)) ∧
  (∀ (x y : Nibble) (s : State),
    s.RegistersBecome (.ldReg x y) (fun r => if r = x then s.readV y else s.readV r) ∧
    s.RegistersBecome (.orReg x y) (fun r => if r = x then s.readV x ||| s.readV y else s.readV r) ∧
    s.RegistersBecome (.andReg x y) (fun r => if r = x then s.readV x &&& s.readV y else s.readV r) ∧
    s.RegistersBecome (.xorReg x y) (fun r => if r = x then s.readV x ^^^ s.readV y else s.readV r)) ∧
  ∀ (x : Nibble) (s : State), exec (.ldReg x x) s = .next s ∧ exec (.orReg x x) s = .next s ∧
    exec (.andReg x x) s = .next s ∧ s.RegistersBecome (.xorReg x x) (fun r => if r = x then 0x00 else s.readV r)

/-- 8XY4 leaves V[x] = V[x] + V[y] modulo 256 and VF = 1 when the exact sum exceeds 0xFF, else 0; when x = F only the flag stays (decision D5: the flag is written last; log 24); no other register and nothing else changes; its encoding. (42_alu.md section 2, ADD Vx, Vy, 92_eei_decisions.md D5) -/
def Obligations.AddWithCarry : Prop :=
  EncodedBy 0xF00F 0x8004 (fun w => .addReg (xOf w) (yOf w)) ∧
  ∀ (x y : Nibble) (s : State), s.RegistersBecome (.addReg x y) (fun r =>
    if r = 0xF then (if (s.readV x).toNat + (s.readV y).toNat > 0xFF then 1 else 0)
    else if r = x then BitVec.ofNat 8 ((s.readV x).toNat + (s.readV y).toNat) else s.readV r)

/-- 8XY5 leaves V[x] = V[x] - V[y] and 8XY7 V[x] = V[y] - V[x], modulo 256, and VF = 1 when no borrow occurs, equal operands included, else 0; when x = F only the flag stays; no other register and nothing else changes; the encodings; with P_SUB_EQ_FLAG left open the flag of equal operands is that parameter (decisions D5, D6; log 7, 24; 8XY7's encoding is D2, log 11). (42_alu.md section 2, SUB Vx, Vy and SUBN Vx, Vy, 92_eei_decisions.md D5, D6, D2) -/
def Obligations.SubtractionsWithNotBorrow : Prop :=
  EncodedBy 0xF00F 0x8005 (fun w => .subReg (xOf w) (yOf w)) ∧ EncodedBy 0xF00F 0x8007 (fun w => .subnReg (xOf w) (yOf w)) ∧
  (∀ (x y : Nibble) (s : State),
    s.RegistersBecome (.subReg x y) (fun r =>
      if r = 0xF then (if (s.readV y).toNat ≤ (s.readV x).toNat then 1 else 0)
      else if r = x then BitVec.ofNat 8 ((s.readV x).toNat + 256 - (s.readV y).toNat) else s.readV r) ∧
    s.RegistersBecome (.subnReg x y) (fun r =>
      if r = 0xF then (if (s.readV x).toNat ≤ (s.readV y).toNat then 1 else 0)
      else if r = x then BitVec.ofNat 8 ((s.readV y).toNat + 256 - (s.readV x).toNat) else s.readV r)) ∧
  ∀ (eqFlag : Bool) (a b : Byte), notBorrowFlag eqFlag a b =
    if b.toNat < a.toNat then 1 else if a = b then (if eqFlag then 1 else 0) else 0

/-- 8XY6 leaves V[x] = V[x] / 2 and VF = old bit 0; 8XYE leaves V[x] = 2·V[x] modulo 256 and VF = old bit 7; V[y] is not read; when x = F only the flag stays; no other register and nothing else changes; the encodings (decisions D5, D7; log 24, 25; 8XYE's encoding is D2, log 11). (42_alu.md section 2, SHR Vx and SHL Vx, 92_eei_decisions.md D5, D7, D2) -/
def Obligations.ShiftsMoveOneBitIntoVF : Prop :=
  EncodedBy 0xF00F 0x8006 (fun w => .shr (xOf w) (yOf w)) ∧ EncodedBy 0xF00F 0x800E (fun w => .shl (xOf w) (yOf w)) ∧
  ∀ (x y : Nibble) (s : State),
    s.RegistersBecome (.shr x y) (fun r =>
      if r = 0xF then BitVec.ofNat 8 ((s.readV x).toNat % 2)
      else if r = x then BitVec.ofNat 8 ((s.readV x).toNat / 2) else s.readV r) ∧
    s.RegistersBecome (.shl x y) (fun r =>
      if r = 0xF then BitVec.ofNat 8 ((s.readV x).toNat / 128)
      else if r = x then BitVec.ofNat 8 (2 * (s.readV x).toNat) else s.readV r)

/-- ANNN leaves I = nnn zero-extended, at most 0xFFF, and changes nothing else; its encoding, which is decision D2 (log 11, PRESUMED). (43_index_random.md, LD I, nnn, 92_eei_decisions.md D2) -/
def Obligations.IndexLoad : Prop :=
  EncodedBy 0xF000 0xA000 (fun w => .ldI (nnnOf w)) ∧
  ∀ (nnn : Imm12) (s : State), exec (.ldI nnn) s = .next { s with i := BitVec.ofNat 16 nnn.toNat } ∧
    (BitVec.ofNat 16 nnn.toNat).toNat ≤ 0xFFF

/-- FX1E leaves I = I + V[x] modulo 65536 and VF = 1 when that value exceeds 0xFFF, else 0, with V[x] read before VF is written; FX29 leaves I = 5·V[x], unmasked, and no flag; no other register and nothing else changes; the encodings (decisions D8, D14; log 26, 29; the encodings are D2, log 11). (43_index_random.md, ADD I, Vx and LD F, Vx, 92_eei_decisions.md D5, D8, D14, D2) -/
def Obligations.IndexAddAndGlyph : Prop :=
  EncodedBy 0xF0FF 0xF01E (fun w => .addIVx (xOf w)) ∧ EncodedBy 0xF0FF 0xF029 (fun w => .ldFVx (xOf w)) ∧
  ∀ (x : Nibble) (s : State),
    (∃ t, exec (.addIVx x) s = .next t ∧ t.i.toNat = (s.i.toNat + (s.readV x).toNat) % 65536 ∧
      (∀ r, t.readV r = if r = 0xF then (if 0xFFF < t.i.toNat then 1 else 0) else s.readV r) ∧
      { t with i := s.i, v := s.v } = s) ∧
    ∃ t, exec (.ldFVx x) s = .next t ∧ t.i.toNat = 5 * (s.readV x).toNat ∧ { t with i := s.i } = s

/-- CXKK leaves V[x] = r and kk, with r the random byte of the host's turn, any byte; no other register and nothing else changes; its encoding (decision D19; r is a free value, log 4; the encoding is D2, log 11). (43_index_random.md, RND Vx, kk, 92_eei_decisions.md D19, D2) -/
def Obligations.RandomByteIsMasked : Prop :=
  EncodedBy 0xF000 0xC000 (fun w => .rnd (xOf w) (kkOf w)) ∧
  (∀ (x : Nibble) (kk : Byte) (s : State),
    s.RegistersBecome (.rnd x kk) (fun r => if r = x then s.hostTurn.random &&& kk else s.readV r)) ∧
  ∀ (s : State) (keys : BitVec 16) (b : Byte) (e : Option Nibble) (rest : List HostTurn),
    ({ s with hostScript := ⟨keys, b, e⟩ :: rest } : State).hostTurn.random = b

/-- 00E0, for every value of bits 11:8, leaves every cell 0 and display_changed 1, and changes nothing else, VF included; its encoding. The effect is the spec's decision D3 (log 12). (44_display.md, CLS, 92_eei_decisions.md D3) -/
def Obligations.ClearSetsEveryCellToZero : Prop :=
  EncodedBy 0xF0FF 0x00E0 (fun w => .cls (xOf w)) ∧
  ∀ (x : Nibble) (s : State), ∃ t, exec (.cls x) s = .next t ∧ (∀ c r, t.disp.cell c r = false) ∧
    t.displayChanged = true ∧ { t with disp := s.disp, displayChanged := s.displayChanged } = s

/-- DXYN whose addresses are all in range completes: a cell changes exactly when a set sprite bit lands in it with wraparound modulo 64 and 32 from the origin V[x], V[y] read on entry, so the loop over bits equals this closed form; VF = 1 when some such cell was set, else 0; display_changed is 1; no other register and nothing else changes; its encoding (decisions D5, D9, D15; log 24, 27, 30; the encoding is the source's). (44_display.md, DRW Vx, Vy, n and section 3, 92_eei_decisions.md D5, D9, D15) -/
def Obligations.DrawXorsTheSprite : Prop :=
  EncodedBy 0xF000 0xD000 (fun w => .drw (xOf w) (yOf w) (nOf w)) ∧
  ∀ (x y n : Nibble) (s : State), (∀ k < n.toNat, s.dataBase + k ≤ 0xFFF) → ∃ t, exec (.drw x y n) s = .next t ∧
    (∀ c r, t.disp.cell c r ≠ s.disp.cell c r ↔ s.SpriteBit x y n c r) ∧
    ((∃ c r, s.SpriteBit x y n c r ∧ s.disp.cell c r = true) → t.readV 0xF = 1) ∧
    ((¬ ∃ c r, s.SpriteBit x y n c r ∧ s.disp.cell c r = true) → t.readV 0xF = 0) ∧
    (∀ r, r ≠ 0xF → t.readV r = s.readV r) ∧ t.displayChanged = true ∧
    { t with v := s.v, disp := s.disp, displayChanged := s.displayChanged } = s

/-- With x and y other than F and every address in range, a second identical DXYN, run in any state that has the registers, I, memory and display the first left, gives back the display before the first; on a clear display the first reports VF = 0, and the second reports VF = 1 exactly when the sprite has a set bit (decisions D5, D9, D15; log 24, 27, 30). (95_test_vectors.md S8, 44_display.md, DRW Vx, Vy, n, 92_eei_decisions.md D5, D9, D15) -/
def Obligations.DrawingTwiceErases : Prop :=
  ∀ (x y n : Nibble) (s t later u : State), x ≠ 0xF → y ≠ 0xF → (∀ k < n.toNat, s.dataBase + k ≤ 0xFFF) →
    exec (.drw x y n) s = .next t →
    later.v = t.v → later.i = t.i → later.mem = t.mem → later.disp = t.disp → exec (.drw x y n) later = .next u →
    u.disp = s.disp ∧
    ((∀ c r, s.disp.cell c r = false) → t.readV 0xF = 0 ∧
      (u.readV 0xF = 1 ↔ ∃ k < n.toNat, s.readMem (s.dataBase + k) ≠ 0x00))

/-- EX9E skips the next word when the sampled key V[x] is down, EXA1 when it is up, for V[x] up to 0xF, and nothing but PC changes; above 0xF both raise KeyIndexOutOfRange(V[x]): HALT is set, PC goes back to the instruction's address PC - 2, which the record holds with the word, and nothing else changes (decision D18; log 18, 22); the encodings (decisions D2, D13; log 11, 28). (45_input_timers.md section 1, 60_exceptions.md section 2, fault entry and precision, 92_eei_decisions.md D2, D13, D18) -/
def Obligations.KeySkips : Prop :=
  EncodedBy 0xF0FF 0xE09E (fun w => .skp (xOf w)) ∧ EncodedBy 0xF0FF 0xE0A1 (fun w => .sknp (xOf w)) ∧
  ∀ (x : Nibble) (s : State),
    ((s.readV x).toNat ≤ 0xF →
      exec (.skp x) s = .next { s with pc := if s.keys.getLsbD (s.readV x).toNat then s.pc + 2 else s.pc } ∧
      exec (.sknp x) s = .next { s with pc := if s.keys.getLsbD (s.readV x).toNat then s.pc else s.pc + 2 }) ∧
    (0xF < (s.readV x).toNat →
      exec (.skp x) s = .next (s.raised (encode (.skp x)) (.keyIndexOutOfRange (s.readV x))) ∧
      exec (.sknp x) s = .next (s.raised (encode (.sknp x)) (.keyIndexOutOfRange (s.readV x))))

/-- FX07 leaves V[x] = DT as it is before the cycle's tick, FX15 leaves DT = V[x], FX18 leaves ST = V[x], each changing nothing else; in a whole cycle the tick then follows: FX07 reads the DT the cycle started with, FX15 ends with DT = V[x] - 1 and FX18 with ST = V[x] - 1, or 0 for 0, and with tone = (ST > 0) after the tick (decision D24; log 35); the encodings, which are decision D2 (log 11, PRESUMED). (45_input_timers.md section 2, LD Vx, DT, LD DT, Vx and LD ST, Vx, 60_exceptions.md section 4, timer tick and audio gate output, 92_eei_decisions.md D2, D24) -/
def Obligations.TimerMoves : Prop :=
  EncodedBy 0xF0FF 0xF007 (fun w => .ldVxDt (xOf w)) ∧ EncodedBy 0xF0FF 0xF015 (fun w => .ldDtVx (xOf w)) ∧
  EncodedBy 0xF0FF 0xF018 (fun w => .ldStVx (xOf w)) ∧
  (∀ (x : Nibble) (s : State),
    s.RegistersBecome (.ldVxDt x) (fun r => if r = x then s.dt else s.readV r) ∧
    exec (.ldDtVx x) s = .next { s with dt := s.readV x } ∧ exec (.ldStVx x) s = .next { s with st := s.readV x }) ∧
  ∀ (s s' : State) (x : Nibble), step s = .next s' → s.ReadyToFetch →
    (decode s.nextWord = .ok (.ldVxDt x) → s'.readV x = s.dt ∧ s'.dt.toNat = s.dt.toNat - 1) ∧
    (decode s.nextWord = .ok (.ldDtVx x) → s'.dt.toNat = (s.readV x).toNat - 1) ∧
    (decode s.nextWord = .ok (.ldStVx x) → s'.st.toNat = (s.readV x).toNat - 1 ∧ s'.tone = decide ((s.readV x).toNat > 1))

/-- FX0A leaves WAIT = AwaitingKey(x) and changes nothing else, V[x] included; its cycle completes with PC at the next instruction and both timers ticked; its encoding (decision D16, log 31; the encoding is D2, log 11). (45_input_timers.md section 3, key-wait entry, 92_eei_decisions.md D16, D2) -/
def Obligations.KeyWaitEntry : Prop :=
  EncodedBy 0xF0FF 0xF00A (fun w => .ldVxK (xOf w)) ∧
  (∀ (x : Nibble) (s : State), exec (.ldVxK x) s = .next { s with wait := .awaitingKey x }) ∧
  ∀ (s : State) (x : Nibble), s.ReadyToFetch → decode s.nextWord = .ok (.ldVxK x) → ∃ t, step s = .next t ∧
    t.wait = .awaitingKey x ∧ t.pc = s.pc + 2 ∧ t.v = s.v ∧ t.halt = none ∧
    t.dt.toNat = s.dt.toNat - 1 ∧ t.st.toNat = s.st.toNat - 1

/-- In a canonical memory, FX33 whose three addresses from I are in range and outside the font table completes: they hold the hundreds, tens and ones digit of V[x], every byte outside them is unchanged, and nothing else changes, I included; its encoding (decisions D9, D10; log 8, 27; the encoding is D2, log 11). (46_memory_transfer.md, LD B, Vx, 92_eei_decisions.md D9, D10, D2) -/
def Obligations.BcdStoreWritesThreeDigits : Prop :=
  EncodedBy 0xF0FF 0xF033 (fun w => .ldBVx (xOf w)) ∧
  ∀ (x : Nibble) (s : State), s.mem.wf → (∀ k < 3, 0x050 ≤ s.dataBase + k ∧ s.dataBase + k ≤ 0xFFF) →
    ∃ t, exec (.ldBVx x) s = .next t ∧ s.dataBase = s.i.toNat ∧
      (t.readMem s.dataBase).toNat = (s.readV x).toNat / 100 ∧
      (t.readMem (s.dataBase + 1)).toNat = (s.readV x).toNat / 10 % 10 ∧
      (t.readMem (s.dataBase + 2)).toNat = (s.readV x).toNat % 10 ∧
      (∀ a, (a < s.dataBase ∨ s.dataBase + 3 ≤ a) → t.readMem a = s.readMem a) ∧ { t with mem := s.mem } = s

/-- In a canonical memory, FX55 whose x + 1 addresses from I are in range and outside the font table completes: I + k holds V[k] for k up to x, every byte outside them is unchanged, and nothing else changes, I included; its encoding (decisions D9, D10; log 8, 27; the encoding is D2, log 11). (46_memory_transfer.md, LD [I], Vx, 92_eei_decisions.md D9, D10, D2) -/
def Obligations.BulkStoreWritesTheRegisters : Prop :=
  EncodedBy 0xF0FF 0xF055 (fun w => .ldMemVx (xOf w)) ∧
  ∀ (x : Nibble) (s : State), s.mem.wf → (∀ k ≤ x.toNat, 0x050 ≤ s.dataBase + k ∧ s.dataBase + k ≤ 0xFFF) →
    ∃ t, exec (.ldMemVx x) s = .next t ∧ s.dataBase = s.i.toNat ∧
      (∀ k : Nibble, k.toNat ≤ x.toNat → t.readMem (s.dataBase + k.toNat) = s.readV k) ∧
      (∀ a, (a < s.dataBase ∨ s.dataBase + x.toNat < a) → t.readMem a = s.readMem a) ∧ { t with mem := s.mem } = s

/-- FX65 whose x + 1 addresses from I are in range, the font table included, completes: V[k] holds the byte at I + k for k up to x, the other registers and everything else stay, I included; its encoding (decision D9; log 27; the encoding is D2, log 11). (46_memory_transfer.md, LD Vx, [I], 92_eei_decisions.md D9, D2) -/
def Obligations.BulkLoadReadsTheRegisters : Prop :=
  EncodedBy 0xF0FF 0xF065 (fun w => .ldVxMem (xOf w)) ∧
  ∀ (x : Nibble) (s : State), (∀ k ≤ x.toNat, s.dataBase + k ≤ 0xFFF) →
    s.RegistersBecome (.ldVxMem x) (fun r =>
      if r.toNat ≤ x.toNat then s.readMem (s.i.toNat + r.toNat) else s.readV r)

/-- If I + k is the first address of an FX33 or FX55 that is above 0xFFF or in the font table, it raises OutOfRangeAddress(write, I + k) or FontRegionWrite(I + k); if I + k is the first of a DXYN or an FX65 above 0xFFF, it raises OutOfRangeAddress(read, I + k); in each case HALT is set, PC goes back to the instruction's address PC - 2, which the record holds with the word, and nothing else changes, so no cell, byte or register is written (decision D18; log 18, 22). The bounds, the font check and their order are decisions D9, D10 and D26 (log 8, 27, 36). (44_display.md, DRW Vx, Vy, n, faults, 46_memory_transfer.md, faults, 60_exceptions.md section 2, fault entry, precision and priority, 92_eei_decisions.md D9, D10, D18, D26) -/
def Obligations.DataAccessesFaultAtTheFirstBadAddress : Prop :=
  ∀ (x y n : Nibble) (s : State) (k : Nat),
    ((∀ j < k, 0x050 ≤ s.dataBase + j ∧ s.dataBase + j ≤ 0xFFF) →
      (0xFFF < s.dataBase + k →
        (k < 3 → exec (.ldBVx x) s = .next (s.raised (encode (.ldBVx x)) (.outOfRangeAddress .write (s.dataBase + k)))) ∧
        (k ≤ x.toNat →
          exec (.ldMemVx x) s = .next (s.raised (encode (.ldMemVx x)) (.outOfRangeAddress .write (s.dataBase + k))))) ∧
      (s.dataBase + k ≤ 0x04F →
        (k < 3 → exec (.ldBVx x) s = .next (s.raised (encode (.ldBVx x)) (.fontRegionWrite (s.dataBase + k)))) ∧
        (k ≤ x.toNat →
          exec (.ldMemVx x) s = .next (s.raised (encode (.ldMemVx x)) (.fontRegionWrite (s.dataBase + k)))))) ∧
    ((∀ j < k, s.dataBase + j ≤ 0xFFF) → 0xFFF < s.dataBase + k →
      (k ≤ x.toNat →
        exec (.ldVxMem x) s = .next (s.raised (encode (.ldVxMem x)) (.outOfRangeAddress .read (s.dataBase + k)))) ∧
      (k < n.toNat →
        exec (.drw x y n) s = .next (s.raised (encode (.drw x y n)) (.outOfRangeAddress .read (s.dataBase + k)))))

/-- A faulting cycle sends the presentation sink nothing, leaves the audio gate's value as it was, and gives the process the exit status of the recorded kind; a step while AwaitingKey sends the sink nothing, leaves the gate's value, and gives no exit status (decisions D18, D24; log 19, 35). (40_step_engine.md section 2, a faulting cycle, and section 4, presentation sink and process exit status, 60_exceptions.md section 4, audio gate output, 92_eei_decisions.md D18, D24) -/
def Obligations.OnlyCompletedCyclesProduceOutput : Prop :=
  ∀ s s' : State, step s = .next s' →
    (∀ f, s'.halt = some f →
      s.presented s' = none ∧ s'.audioGate = s.audioGate ∧ s'.exitStatus = some (exitCode f.kind)) ∧
    ∀ x, s.wait = .awaitingKey x → s.presented s' = none ∧ s'.audioGate = s.audioGate ∧ s'.exitStatus = none
end

