-- ==== Sys2Proof/Laws/Encoding.lean ====
section
/-! SUPPORT. The fields of a packed word, a word from its fields, and the fields as arithmetic on the word's value. -/

namespace Sys2Proof

/-! ## Fields of packed words -/

@[simp] theorem opOf_packNNN (op : Nibble) (nnn : Imm12) : opOf (packNNN op nnn) = op := by
  apply BitVec.eq_of_getLsbD_eq
  intro i hi
  simp only [opOf, packNNN, BitVec.getLsbD_extractLsb', BitVec.getLsbD_append]
  interval_cases i <;> simp

@[simp] theorem nnnOf_packNNN (op : Nibble) (nnn : Imm12) : nnnOf (packNNN op nnn) = nnn := by
  apply BitVec.eq_of_getLsbD_eq
  intro i hi
  simp only [nnnOf, packNNN, BitVec.getLsbD_extractLsb', BitVec.getLsbD_append]
  interval_cases i <;> simp

@[simp] theorem opOf_packXKK (op x : Nibble) (kk : Byte) : opOf (packXKK op x kk) = op := by
  apply BitVec.eq_of_getLsbD_eq
  intro i hi
  simp only [opOf, packXKK, BitVec.getLsbD_extractLsb', BitVec.getLsbD_append]
  interval_cases i <;> simp

@[simp] theorem xOf_packXKK (op x : Nibble) (kk : Byte) : xOf (packXKK op x kk) = x := by
  apply BitVec.eq_of_getLsbD_eq
  intro i hi
  simp only [xOf, packXKK, BitVec.getLsbD_extractLsb', BitVec.getLsbD_append]
  interval_cases i <;> simp

@[simp] theorem kkOf_packXKK (op x : Nibble) (kk : Byte) : kkOf (packXKK op x kk) = kk := by
  apply BitVec.eq_of_getLsbD_eq
  intro i hi
  simp only [kkOf, packXKK, BitVec.getLsbD_extractLsb', BitVec.getLsbD_append]
  interval_cases i <;> simp

@[simp] theorem opOf_packXYN (op x y n : Nibble) : opOf (packXYN op x y n) = op := by
  apply BitVec.eq_of_getLsbD_eq
  intro i hi
  simp only [opOf, packXYN, BitVec.getLsbD_extractLsb', BitVec.getLsbD_append]
  interval_cases i <;> simp

@[simp] theorem xOf_packXYN (op x y n : Nibble) : xOf (packXYN op x y n) = x := by
  apply BitVec.eq_of_getLsbD_eq
  intro i hi
  simp only [xOf, packXYN, BitVec.getLsbD_extractLsb', BitVec.getLsbD_append]
  interval_cases i <;> simp

@[simp] theorem yOf_packXYN (op x y n : Nibble) : yOf (packXYN op x y n) = y := by
  apply BitVec.eq_of_getLsbD_eq
  intro i hi
  simp only [yOf, packXYN, BitVec.getLsbD_extractLsb', BitVec.getLsbD_append]
  interval_cases i <;> simp

@[simp] theorem nOf_packXYN (op x y n : Nibble) : nOf (packXYN op x y n) = n := by
  apply BitVec.eq_of_getLsbD_eq
  intro i hi
  simp only [nOf, packXYN, BitVec.getLsbD_extractLsb', BitVec.getLsbD_append]
  interval_cases i <;> simp

/-! ## A word from its fields -/

theorem packNNN_fields (w : Word) : packNNN (opOf w) (nnnOf w) = w := by
  apply BitVec.eq_of_getLsbD_eq
  intro i hi
  simp only [opOf, nnnOf, packNNN, BitVec.getLsbD_extractLsb', BitVec.getLsbD_append]
  interval_cases i <;> simp

theorem packXKK_fields (w : Word) : packXKK (opOf w) (xOf w) (kkOf w) = w := by
  apply BitVec.eq_of_getLsbD_eq
  intro i hi
  simp only [opOf, xOf, kkOf, packXKK, BitVec.getLsbD_extractLsb', BitVec.getLsbD_append]
  interval_cases i <;> simp

theorem packXYN_fields (w : Word) : packXYN (opOf w) (xOf w) (yOf w) (nOf w) = w := by
  apply BitVec.eq_of_getLsbD_eq
  intro i hi
  simp only [opOf, xOf, yOf, nOf, packXYN, BitVec.getLsbD_extractLsb', BitVec.getLsbD_append]
  interval_cases i <;> simp

/-! ## Fields as arithmetic -/

theorem toNat_opOf (w : Word) : (opOf w).toNat = w.toNat / 4096 % 16 := by
  simp [opOf, BitVec.extractLsb'_toNat, Nat.shiftRight_eq_div_pow]

theorem toNat_xOf (w : Word) : (xOf w).toNat = w.toNat / 256 % 16 := by
  simp [xOf, BitVec.extractLsb'_toNat, Nat.shiftRight_eq_div_pow]

theorem toNat_yOf (w : Word) : (yOf w).toNat = w.toNat / 16 % 16 := by
  simp [yOf, BitVec.extractLsb'_toNat, Nat.shiftRight_eq_div_pow]

theorem toNat_nOf (w : Word) : (nOf w).toNat = w.toNat % 16 := by
  simp [nOf, BitVec.extractLsb'_toNat]

theorem toNat_nnnOf (w : Word) : (nnnOf w).toNat = w.toNat % 4096 := by
  simp [nnnOf, BitVec.extractLsb'_toNat]

theorem toNat_kkOf (w : Word) : (kkOf w).toNat = w.toNat % 256 := by
  simp [kkOf, BitVec.extractLsb'_toNat]

/-- The two bytes of a word joined again. -/
theorem joinBytes_bytes (w : Word) : joinBytes (w.extractLsb' 8 8) (w.extractLsb' 0 8) = w := by
  apply BitVec.eq_of_getLsbD_eq
  intro i hi
  simp only [joinBytes, BitVec.getLsbD_extractLsb', BitVec.getLsbD_append]
  interval_cases i <;> simp

end Sys2Proof
end

