-- ==== Sys2Proof/Laws/State.lean ====
section
/-! SUPPORT. Each field of the state after each update of Machine/Ops.lean, by rfl; the register read over writes. -/

namespace Sys2Proof.Machine

variable (s : State)

/-! ### writeV -/

@[simp] theorem State.writeV_v (x : Nibble) (b : Byte) : (s.writeV x b).v = s.v.set x.toNat b x.isLt := rfl
@[simp] theorem State.writeV_i (x : Nibble) (b : Byte) : (s.writeV x b).i = s.i := rfl
@[simp] theorem State.writeV_pc (x : Nibble) (b : Byte) : (s.writeV x b).pc = s.pc := rfl
@[simp] theorem State.writeV_sp (x : Nibble) (b : Byte) : (s.writeV x b).sp = s.sp := rfl
@[simp] theorem State.writeV_stack (x : Nibble) (b : Byte) : (s.writeV x b).stack = s.stack := rfl
@[simp] theorem State.writeV_dt (x : Nibble) (b : Byte) : (s.writeV x b).dt = s.dt := rfl
@[simp] theorem State.writeV_st (x : Nibble) (b : Byte) : (s.writeV x b).st = s.st := rfl
@[simp] theorem State.writeV_mem (x : Nibble) (b : Byte) : (s.writeV x b).mem = s.mem := rfl
@[simp] theorem State.writeV_disp (x : Nibble) (b : Byte) : (s.writeV x b).disp = s.disp := rfl
@[simp] theorem State.writeV_keys (x : Nibble) (b : Byte) : (s.writeV x b).keys = s.keys := rfl
@[simp] theorem State.writeV_wait (x : Nibble) (b : Byte) : (s.writeV x b).wait = s.wait := rfl
@[simp] theorem State.writeV_halt (x : Nibble) (b : Byte) : (s.writeV x b).halt = s.halt := rfl
@[simp] theorem State.writeV_displayChanged (x : Nibble) (b : Byte) : (s.writeV x b).displayChanged = s.displayChanged := rfl
@[simp] theorem State.writeV_tone (x : Nibble) (b : Byte) : (s.writeV x b).tone = s.tone := rfl
@[simp] theorem State.writeV_hostScript (x : Nibble) (b : Byte) : (s.writeV x b).hostScript = s.hostScript := rfl
@[simp] theorem State.writeV_hostClock (x : Nibble) (b : Byte) : (s.writeV x b).hostClock = s.hostClock := rfl

@[simp] theorem State.readMem_writeV (x : Nibble) (b : Byte) (k : Nat) : (s.writeV x b).readMem k = s.readMem k := rfl
@[simp] theorem State.hostTurn_writeV (x : Nibble) (b : Byte) : (s.writeV x b).hostTurn = s.hostTurn := rfl

/-! ### setI -/

@[simp] theorem State.setI_v (a : Word) : (s.setI a).v = s.v := rfl
@[simp] theorem State.setI_i (a : Word) : (s.setI a).i = a := rfl
@[simp] theorem State.setI_pc (a : Word) : (s.setI a).pc = s.pc := rfl
@[simp] theorem State.setI_sp (a : Word) : (s.setI a).sp = s.sp := rfl
@[simp] theorem State.setI_stack (a : Word) : (s.setI a).stack = s.stack := rfl
@[simp] theorem State.setI_dt (a : Word) : (s.setI a).dt = s.dt := rfl
@[simp] theorem State.setI_st (a : Word) : (s.setI a).st = s.st := rfl
@[simp] theorem State.setI_mem (a : Word) : (s.setI a).mem = s.mem := rfl
@[simp] theorem State.setI_disp (a : Word) : (s.setI a).disp = s.disp := rfl
@[simp] theorem State.setI_keys (a : Word) : (s.setI a).keys = s.keys := rfl
@[simp] theorem State.setI_wait (a : Word) : (s.setI a).wait = s.wait := rfl
@[simp] theorem State.setI_halt (a : Word) : (s.setI a).halt = s.halt := rfl
@[simp] theorem State.setI_displayChanged (a : Word) : (s.setI a).displayChanged = s.displayChanged := rfl
@[simp] theorem State.setI_tone (a : Word) : (s.setI a).tone = s.tone := rfl
@[simp] theorem State.setI_hostScript (a : Word) : (s.setI a).hostScript = s.hostScript := rfl
@[simp] theorem State.setI_hostClock (a : Word) : (s.setI a).hostClock = s.hostClock := rfl

@[simp] theorem State.readV_setI (a : Word) (r : Nibble) : (s.setI a).readV r = s.readV r := rfl
@[simp] theorem State.readMem_setI (a : Word) (k : Nat) : (s.setI a).readMem k = s.readMem k := rfl
@[simp] theorem State.hostTurn_setI (a : Word) : (s.setI a).hostTurn = s.hostTurn := rfl

/-! ### setPc -/

@[simp] theorem State.setPc_v (a : Word) : (s.setPc a).v = s.v := rfl
@[simp] theorem State.setPc_i (a : Word) : (s.setPc a).i = s.i := rfl
@[simp] theorem State.setPc_pc (a : Word) : (s.setPc a).pc = a := rfl
@[simp] theorem State.setPc_sp (a : Word) : (s.setPc a).sp = s.sp := rfl
@[simp] theorem State.setPc_stack (a : Word) : (s.setPc a).stack = s.stack := rfl
@[simp] theorem State.setPc_dt (a : Word) : (s.setPc a).dt = s.dt := rfl
@[simp] theorem State.setPc_st (a : Word) : (s.setPc a).st = s.st := rfl
@[simp] theorem State.setPc_mem (a : Word) : (s.setPc a).mem = s.mem := rfl
@[simp] theorem State.setPc_disp (a : Word) : (s.setPc a).disp = s.disp := rfl
@[simp] theorem State.setPc_keys (a : Word) : (s.setPc a).keys = s.keys := rfl
@[simp] theorem State.setPc_wait (a : Word) : (s.setPc a).wait = s.wait := rfl
@[simp] theorem State.setPc_halt (a : Word) : (s.setPc a).halt = s.halt := rfl
@[simp] theorem State.setPc_displayChanged (a : Word) : (s.setPc a).displayChanged = s.displayChanged := rfl
@[simp] theorem State.setPc_tone (a : Word) : (s.setPc a).tone = s.tone := rfl
@[simp] theorem State.setPc_hostScript (a : Word) : (s.setPc a).hostScript = s.hostScript := rfl
@[simp] theorem State.setPc_hostClock (a : Word) : (s.setPc a).hostClock = s.hostClock := rfl

@[simp] theorem State.readV_setPc (a : Word) (r : Nibble) : (s.setPc a).readV r = s.readV r := rfl
@[simp] theorem State.readMem_setPc (a : Word) (k : Nat) : (s.setPc a).readMem k = s.readMem k := rfl
@[simp] theorem State.hostTurn_setPc (a : Word) : (s.setPc a).hostTurn = s.hostTurn := rfl

/-! ### setDt -/

@[simp] theorem State.setDt_v (b : Byte) : (s.setDt b).v = s.v := rfl
@[simp] theorem State.setDt_i (b : Byte) : (s.setDt b).i = s.i := rfl
@[simp] theorem State.setDt_pc (b : Byte) : (s.setDt b).pc = s.pc := rfl
@[simp] theorem State.setDt_sp (b : Byte) : (s.setDt b).sp = s.sp := rfl
@[simp] theorem State.setDt_stack (b : Byte) : (s.setDt b).stack = s.stack := rfl
@[simp] theorem State.setDt_dt (b : Byte) : (s.setDt b).dt = b := rfl
@[simp] theorem State.setDt_st (b : Byte) : (s.setDt b).st = s.st := rfl
@[simp] theorem State.setDt_mem (b : Byte) : (s.setDt b).mem = s.mem := rfl
@[simp] theorem State.setDt_disp (b : Byte) : (s.setDt b).disp = s.disp := rfl
@[simp] theorem State.setDt_keys (b : Byte) : (s.setDt b).keys = s.keys := rfl
@[simp] theorem State.setDt_wait (b : Byte) : (s.setDt b).wait = s.wait := rfl
@[simp] theorem State.setDt_halt (b : Byte) : (s.setDt b).halt = s.halt := rfl
@[simp] theorem State.setDt_displayChanged (b : Byte) : (s.setDt b).displayChanged = s.displayChanged := rfl
@[simp] theorem State.setDt_tone (b : Byte) : (s.setDt b).tone = s.tone := rfl
@[simp] theorem State.setDt_hostScript (b : Byte) : (s.setDt b).hostScript = s.hostScript := rfl
@[simp] theorem State.setDt_hostClock (b : Byte) : (s.setDt b).hostClock = s.hostClock := rfl

@[simp] theorem State.readV_setDt (b : Byte) (r : Nibble) : (s.setDt b).readV r = s.readV r := rfl
@[simp] theorem State.readMem_setDt (b : Byte) (k : Nat) : (s.setDt b).readMem k = s.readMem k := rfl
@[simp] theorem State.hostTurn_setDt (b : Byte) : (s.setDt b).hostTurn = s.hostTurn := rfl

/-! ### setSt -/

@[simp] theorem State.setSt_v (b : Byte) : (s.setSt b).v = s.v := rfl
@[simp] theorem State.setSt_i (b : Byte) : (s.setSt b).i = s.i := rfl
@[simp] theorem State.setSt_pc (b : Byte) : (s.setSt b).pc = s.pc := rfl
@[simp] theorem State.setSt_sp (b : Byte) : (s.setSt b).sp = s.sp := rfl
@[simp] theorem State.setSt_stack (b : Byte) : (s.setSt b).stack = s.stack := rfl
@[simp] theorem State.setSt_dt (b : Byte) : (s.setSt b).dt = s.dt := rfl
@[simp] theorem State.setSt_st (b : Byte) : (s.setSt b).st = b := rfl
@[simp] theorem State.setSt_mem (b : Byte) : (s.setSt b).mem = s.mem := rfl
@[simp] theorem State.setSt_disp (b : Byte) : (s.setSt b).disp = s.disp := rfl
@[simp] theorem State.setSt_keys (b : Byte) : (s.setSt b).keys = s.keys := rfl
@[simp] theorem State.setSt_wait (b : Byte) : (s.setSt b).wait = s.wait := rfl
@[simp] theorem State.setSt_halt (b : Byte) : (s.setSt b).halt = s.halt := rfl
@[simp] theorem State.setSt_displayChanged (b : Byte) : (s.setSt b).displayChanged = s.displayChanged := rfl
@[simp] theorem State.setSt_tone (b : Byte) : (s.setSt b).tone = s.tone := rfl
@[simp] theorem State.setSt_hostScript (b : Byte) : (s.setSt b).hostScript = s.hostScript := rfl
@[simp] theorem State.setSt_hostClock (b : Byte) : (s.setSt b).hostClock = s.hostClock := rfl

@[simp] theorem State.readV_setSt (b : Byte) (r : Nibble) : (s.setSt b).readV r = s.readV r := rfl
@[simp] theorem State.readMem_setSt (b : Byte) (k : Nat) : (s.setSt b).readMem k = s.readMem k := rfl
@[simp] theorem State.hostTurn_setSt (b : Byte) : (s.setSt b).hostTurn = s.hostTurn := rfl

/-! ### setMem -/

@[simp] theorem State.setMem_v (m : Memory) : (s.setMem m).v = s.v := rfl
@[simp] theorem State.setMem_i (m : Memory) : (s.setMem m).i = s.i := rfl
@[simp] theorem State.setMem_pc (m : Memory) : (s.setMem m).pc = s.pc := rfl
@[simp] theorem State.setMem_sp (m : Memory) : (s.setMem m).sp = s.sp := rfl
@[simp] theorem State.setMem_stack (m : Memory) : (s.setMem m).stack = s.stack := rfl
@[simp] theorem State.setMem_dt (m : Memory) : (s.setMem m).dt = s.dt := rfl
@[simp] theorem State.setMem_st (m : Memory) : (s.setMem m).st = s.st := rfl
@[simp] theorem State.setMem_mem (m : Memory) : (s.setMem m).mem = m := rfl
@[simp] theorem State.setMem_disp (m : Memory) : (s.setMem m).disp = s.disp := rfl
@[simp] theorem State.setMem_keys (m : Memory) : (s.setMem m).keys = s.keys := rfl
@[simp] theorem State.setMem_wait (m : Memory) : (s.setMem m).wait = s.wait := rfl
@[simp] theorem State.setMem_halt (m : Memory) : (s.setMem m).halt = s.halt := rfl
@[simp] theorem State.setMem_displayChanged (m : Memory) : (s.setMem m).displayChanged = s.displayChanged := rfl
@[simp] theorem State.setMem_tone (m : Memory) : (s.setMem m).tone = s.tone := rfl
@[simp] theorem State.setMem_hostScript (m : Memory) : (s.setMem m).hostScript = s.hostScript := rfl
@[simp] theorem State.setMem_hostClock (m : Memory) : (s.setMem m).hostClock = s.hostClock := rfl

@[simp] theorem State.readV_setMem (m : Memory) (r : Nibble) : (s.setMem m).readV r = s.readV r := rfl
@[simp] theorem State.readMem_setMem (m : Memory) (k : Nat) : (s.setMem m).readMem k = m.read k := rfl
@[simp] theorem State.hostTurn_setMem (m : Memory) : (s.setMem m).hostTurn = s.hostTurn := rfl

/-! ### redraw -/

@[simp] theorem State.redraw_v (d : Display) : (s.redraw d).v = s.v := rfl
@[simp] theorem State.redraw_i (d : Display) : (s.redraw d).i = s.i := rfl
@[simp] theorem State.redraw_pc (d : Display) : (s.redraw d).pc = s.pc := rfl
@[simp] theorem State.redraw_sp (d : Display) : (s.redraw d).sp = s.sp := rfl
@[simp] theorem State.redraw_stack (d : Display) : (s.redraw d).stack = s.stack := rfl
@[simp] theorem State.redraw_dt (d : Display) : (s.redraw d).dt = s.dt := rfl
@[simp] theorem State.redraw_st (d : Display) : (s.redraw d).st = s.st := rfl
@[simp] theorem State.redraw_mem (d : Display) : (s.redraw d).mem = s.mem := rfl
@[simp] theorem State.redraw_disp (d : Display) : (s.redraw d).disp = d := rfl
@[simp] theorem State.redraw_keys (d : Display) : (s.redraw d).keys = s.keys := rfl
@[simp] theorem State.redraw_wait (d : Display) : (s.redraw d).wait = s.wait := rfl
@[simp] theorem State.redraw_halt (d : Display) : (s.redraw d).halt = s.halt := rfl
@[simp] theorem State.redraw_displayChanged (d : Display) : (s.redraw d).displayChanged = true := rfl
@[simp] theorem State.redraw_tone (d : Display) : (s.redraw d).tone = s.tone := rfl
@[simp] theorem State.redraw_hostScript (d : Display) : (s.redraw d).hostScript = s.hostScript := rfl
@[simp] theorem State.redraw_hostClock (d : Display) : (s.redraw d).hostClock = s.hostClock := rfl

@[simp] theorem State.readV_redraw (d : Display) (r : Nibble) : (s.redraw d).readV r = s.readV r := rfl
@[simp] theorem State.readMem_redraw (d : Display) (k : Nat) : (s.redraw d).readMem k = s.readMem k := rfl
@[simp] theorem State.hostTurn_redraw (d : Display) : (s.redraw d).hostTurn = s.hostTurn := rfl

/-! ### setWait -/

@[simp] theorem State.setWait_v (w : WaitState) : (s.setWait w).v = s.v := rfl
@[simp] theorem State.setWait_i (w : WaitState) : (s.setWait w).i = s.i := rfl
@[simp] theorem State.setWait_pc (w : WaitState) : (s.setWait w).pc = s.pc := rfl
@[simp] theorem State.setWait_sp (w : WaitState) : (s.setWait w).sp = s.sp := rfl
@[simp] theorem State.setWait_stack (w : WaitState) : (s.setWait w).stack = s.stack := rfl
@[simp] theorem State.setWait_dt (w : WaitState) : (s.setWait w).dt = s.dt := rfl
@[simp] theorem State.setWait_st (w : WaitState) : (s.setWait w).st = s.st := rfl
@[simp] theorem State.setWait_mem (w : WaitState) : (s.setWait w).mem = s.mem := rfl
@[simp] theorem State.setWait_disp (w : WaitState) : (s.setWait w).disp = s.disp := rfl
@[simp] theorem State.setWait_keys (w : WaitState) : (s.setWait w).keys = s.keys := rfl
@[simp] theorem State.setWait_wait (w : WaitState) : (s.setWait w).wait = w := rfl
@[simp] theorem State.setWait_halt (w : WaitState) : (s.setWait w).halt = s.halt := rfl
@[simp] theorem State.setWait_displayChanged (w : WaitState) : (s.setWait w).displayChanged = s.displayChanged := rfl
@[simp] theorem State.setWait_tone (w : WaitState) : (s.setWait w).tone = s.tone := rfl
@[simp] theorem State.setWait_hostScript (w : WaitState) : (s.setWait w).hostScript = s.hostScript := rfl
@[simp] theorem State.setWait_hostClock (w : WaitState) : (s.setWait w).hostClock = s.hostClock := rfl

@[simp] theorem State.readV_setWait (w : WaitState) (r : Nibble) : (s.setWait w).readV r = s.readV r := rfl
@[simp] theorem State.readMem_setWait (w : WaitState) (k : Nat) : (s.setWait w).readMem k = s.readMem k := rfl
@[simp] theorem State.hostTurn_setWait (w : WaitState) : (s.setWait w).hostTurn = s.hostTurn := rfl

/-! ### skipIf -/

@[simp] theorem State.skipIf_v (c : Bool) : (s.skipIf c).v = s.v := rfl
@[simp] theorem State.skipIf_i (c : Bool) : (s.skipIf c).i = s.i := rfl
@[simp] theorem State.skipIf_pc (c : Bool) : (s.skipIf c).pc = if c then s.pc + 2 else s.pc := rfl
@[simp] theorem State.skipIf_sp (c : Bool) : (s.skipIf c).sp = s.sp := rfl
@[simp] theorem State.skipIf_stack (c : Bool) : (s.skipIf c).stack = s.stack := rfl
@[simp] theorem State.skipIf_dt (c : Bool) : (s.skipIf c).dt = s.dt := rfl
@[simp] theorem State.skipIf_st (c : Bool) : (s.skipIf c).st = s.st := rfl
@[simp] theorem State.skipIf_mem (c : Bool) : (s.skipIf c).mem = s.mem := rfl
@[simp] theorem State.skipIf_disp (c : Bool) : (s.skipIf c).disp = s.disp := rfl
@[simp] theorem State.skipIf_keys (c : Bool) : (s.skipIf c).keys = s.keys := rfl
@[simp] theorem State.skipIf_wait (c : Bool) : (s.skipIf c).wait = s.wait := rfl
@[simp] theorem State.skipIf_halt (c : Bool) : (s.skipIf c).halt = s.halt := rfl
@[simp] theorem State.skipIf_displayChanged (c : Bool) : (s.skipIf c).displayChanged = s.displayChanged := rfl
@[simp] theorem State.skipIf_tone (c : Bool) : (s.skipIf c).tone = s.tone := rfl
@[simp] theorem State.skipIf_hostScript (c : Bool) : (s.skipIf c).hostScript = s.hostScript := rfl
@[simp] theorem State.skipIf_hostClock (c : Bool) : (s.skipIf c).hostClock = s.hostClock := rfl

@[simp] theorem State.readV_skipIf (c : Bool) (r : Nibble) : (s.skipIf c).readV r = s.readV r := rfl
@[simp] theorem State.readMem_skipIf (c : Bool) (k : Nat) : (s.skipIf c).readMem k = s.readMem k := rfl
@[simp] theorem State.hostTurn_skipIf (c : Bool) : (s.skipIf c).hostTurn = s.hostTurn := rfl

/-! ### push -/

@[simp] theorem State.push_v (a : Word) (h : s.sp.val < 16) : (s.push a h).v = s.v := rfl
@[simp] theorem State.push_i (a : Word) (h : s.sp.val < 16) : (s.push a h).i = s.i := rfl
@[simp] theorem State.push_pc (a : Word) (h : s.sp.val < 16) : (s.push a h).pc = s.pc := rfl
@[simp] theorem State.push_sp (a : Word) (h : s.sp.val < 16) : (s.push a h).sp = ⟨s.sp.val + 1, Nat.succ_lt_succ h⟩ := rfl
@[simp] theorem State.push_stack (a : Word) (h : s.sp.val < 16) : (s.push a h).stack = s.stack.set s.sp.val a h := rfl
@[simp] theorem State.push_dt (a : Word) (h : s.sp.val < 16) : (s.push a h).dt = s.dt := rfl
@[simp] theorem State.push_st (a : Word) (h : s.sp.val < 16) : (s.push a h).st = s.st := rfl
@[simp] theorem State.push_mem (a : Word) (h : s.sp.val < 16) : (s.push a h).mem = s.mem := rfl
@[simp] theorem State.push_disp (a : Word) (h : s.sp.val < 16) : (s.push a h).disp = s.disp := rfl
@[simp] theorem State.push_keys (a : Word) (h : s.sp.val < 16) : (s.push a h).keys = s.keys := rfl
@[simp] theorem State.push_wait (a : Word) (h : s.sp.val < 16) : (s.push a h).wait = s.wait := rfl
@[simp] theorem State.push_halt (a : Word) (h : s.sp.val < 16) : (s.push a h).halt = s.halt := rfl
@[simp] theorem State.push_displayChanged (a : Word) (h : s.sp.val < 16) : (s.push a h).displayChanged = s.displayChanged := rfl
@[simp] theorem State.push_tone (a : Word) (h : s.sp.val < 16) : (s.push a h).tone = s.tone := rfl
@[simp] theorem State.push_hostScript (a : Word) (h : s.sp.val < 16) : (s.push a h).hostScript = s.hostScript := rfl
@[simp] theorem State.push_hostClock (a : Word) (h : s.sp.val < 16) : (s.push a h).hostClock = s.hostClock := rfl

@[simp] theorem State.readV_push (a : Word) (h : s.sp.val < 16) (r : Nibble) : (s.push a h).readV r = s.readV r := rfl
@[simp] theorem State.readMem_push (a : Word) (h : s.sp.val < 16) (k : Nat) : (s.push a h).readMem k = s.readMem k := rfl
@[simp] theorem State.hostTurn_push (a : Word) (h : s.sp.val < 16) : (s.push a h).hostTurn = s.hostTurn := rfl

/-! ### pop -/

@[simp] theorem State.pop_v (h : 0 < s.sp.val) : (s.pop h).v = s.v := rfl
@[simp] theorem State.pop_i (h : 0 < s.sp.val) : (s.pop h).i = s.i := rfl
@[simp] theorem State.pop_pc (h : 0 < s.sp.val) : (s.pop h).pc = s.stack[s.sp.val - 1]'(Nat.sub_one_lt_of_le h (Nat.le_of_lt_succ s.sp.isLt)) := rfl
@[simp] theorem State.pop_sp (h : 0 < s.sp.val) : (s.pop h).sp = ⟨s.sp.val - 1, lt_of_le_of_lt (Nat.sub_le _ _) s.sp.isLt⟩ := rfl
@[simp] theorem State.pop_stack (h : 0 < s.sp.val) : (s.pop h).stack = s.stack := rfl
@[simp] theorem State.pop_dt (h : 0 < s.sp.val) : (s.pop h).dt = s.dt := rfl
@[simp] theorem State.pop_st (h : 0 < s.sp.val) : (s.pop h).st = s.st := rfl
@[simp] theorem State.pop_mem (h : 0 < s.sp.val) : (s.pop h).mem = s.mem := rfl
@[simp] theorem State.pop_disp (h : 0 < s.sp.val) : (s.pop h).disp = s.disp := rfl
@[simp] theorem State.pop_keys (h : 0 < s.sp.val) : (s.pop h).keys = s.keys := rfl
@[simp] theorem State.pop_wait (h : 0 < s.sp.val) : (s.pop h).wait = s.wait := rfl
@[simp] theorem State.pop_halt (h : 0 < s.sp.val) : (s.pop h).halt = s.halt := rfl
@[simp] theorem State.pop_displayChanged (h : 0 < s.sp.val) : (s.pop h).displayChanged = s.displayChanged := rfl
@[simp] theorem State.pop_tone (h : 0 < s.sp.val) : (s.pop h).tone = s.tone := rfl
@[simp] theorem State.pop_hostScript (h : 0 < s.sp.val) : (s.pop h).hostScript = s.hostScript := rfl
@[simp] theorem State.pop_hostClock (h : 0 < s.sp.val) : (s.pop h).hostClock = s.hostClock := rfl

@[simp] theorem State.readV_pop (h : 0 < s.sp.val) (r : Nibble) : (s.pop h).readV r = s.readV r := rfl
@[simp] theorem State.readMem_pop (h : 0 < s.sp.val) (k : Nat) : (s.pop h).readMem k = s.readMem k := rfl
@[simp] theorem State.hostTurn_pop (h : 0 < s.sp.val) : (s.pop h).hostTurn = s.hostTurn := rfl

/-! ### enterFault -/

@[simp] theorem State.enterFault_v (f : FaultRecord) : (s.enterFault f).v = s.v := rfl
@[simp] theorem State.enterFault_i (f : FaultRecord) : (s.enterFault f).i = s.i := rfl
@[simp] theorem State.enterFault_pc (f : FaultRecord) : (s.enterFault f).pc = s.pc := rfl
@[simp] theorem State.enterFault_sp (f : FaultRecord) : (s.enterFault f).sp = s.sp := rfl
@[simp] theorem State.enterFault_stack (f : FaultRecord) : (s.enterFault f).stack = s.stack := rfl
@[simp] theorem State.enterFault_dt (f : FaultRecord) : (s.enterFault f).dt = s.dt := rfl
@[simp] theorem State.enterFault_st (f : FaultRecord) : (s.enterFault f).st = s.st := rfl
@[simp] theorem State.enterFault_mem (f : FaultRecord) : (s.enterFault f).mem = s.mem := rfl
@[simp] theorem State.enterFault_disp (f : FaultRecord) : (s.enterFault f).disp = s.disp := rfl
@[simp] theorem State.enterFault_keys (f : FaultRecord) : (s.enterFault f).keys = s.keys := rfl
@[simp] theorem State.enterFault_wait (f : FaultRecord) : (s.enterFault f).wait = s.wait := rfl
@[simp] theorem State.enterFault_halt (f : FaultRecord) : (s.enterFault f).halt = some f := rfl
@[simp] theorem State.enterFault_displayChanged (f : FaultRecord) : (s.enterFault f).displayChanged = s.displayChanged := rfl
@[simp] theorem State.enterFault_tone (f : FaultRecord) : (s.enterFault f).tone = s.tone := rfl
@[simp] theorem State.enterFault_hostScript (f : FaultRecord) : (s.enterFault f).hostScript = s.hostScript := rfl
@[simp] theorem State.enterFault_hostClock (f : FaultRecord) : (s.enterFault f).hostClock = s.hostClock := rfl

@[simp] theorem State.readV_enterFault (f : FaultRecord) (r : Nibble) : (s.enterFault f).readV r = s.readV r := rfl
@[simp] theorem State.readMem_enterFault (f : FaultRecord) (k : Nat) : (s.enterFault f).readMem k = s.readMem k := rfl
@[simp] theorem State.hostTurn_enterFault (f : FaultRecord) : (s.enterFault f).hostTurn = s.hostTurn := rfl

/-! ### endTurn -/

@[simp] theorem State.endTurn_v : (s.endTurn).v = s.v := rfl
@[simp] theorem State.endTurn_i : (s.endTurn).i = s.i := rfl
@[simp] theorem State.endTurn_pc : (s.endTurn).pc = s.pc := rfl
@[simp] theorem State.endTurn_sp : (s.endTurn).sp = s.sp := rfl
@[simp] theorem State.endTurn_stack : (s.endTurn).stack = s.stack := rfl
@[simp] theorem State.endTurn_dt : (s.endTurn).dt = s.dt := rfl
@[simp] theorem State.endTurn_st : (s.endTurn).st = s.st := rfl
@[simp] theorem State.endTurn_mem : (s.endTurn).mem = s.mem := rfl
@[simp] theorem State.endTurn_disp : (s.endTurn).disp = s.disp := rfl
@[simp] theorem State.endTurn_keys : (s.endTurn).keys = s.keys := rfl
@[simp] theorem State.endTurn_wait : (s.endTurn).wait = s.wait := rfl
@[simp] theorem State.endTurn_halt : (s.endTurn).halt = s.halt := rfl
@[simp] theorem State.endTurn_displayChanged : (s.endTurn).displayChanged = s.displayChanged := rfl
@[simp] theorem State.endTurn_tone : (s.endTurn).tone = s.tone := rfl
@[simp] theorem State.endTurn_hostScript : (s.endTurn).hostScript = s.hostScript.tail := rfl
@[simp] theorem State.endTurn_hostClock : (s.endTurn).hostClock = s.hostClock + 1 := rfl

@[simp] theorem State.readV_endTurn (r : Nibble) : (s.endTurn).readV r = s.readV r := rfl
@[simp] theorem State.readMem_endTurn (k : Nat) : (s.endTurn).readMem k = s.readMem k := rfl

/-! ### beginCycle -/

@[simp] theorem State.beginCycle_v : (s.beginCycle).v = s.v := rfl
@[simp] theorem State.beginCycle_i : (s.beginCycle).i = s.i := rfl
@[simp] theorem State.beginCycle_pc : (s.beginCycle).pc = s.pc + 2 := rfl
@[simp] theorem State.beginCycle_sp : (s.beginCycle).sp = s.sp := rfl
@[simp] theorem State.beginCycle_stack : (s.beginCycle).stack = s.stack := rfl
@[simp] theorem State.beginCycle_dt : (s.beginCycle).dt = s.dt := rfl
@[simp] theorem State.beginCycle_st : (s.beginCycle).st = s.st := rfl
@[simp] theorem State.beginCycle_mem : (s.beginCycle).mem = s.mem := rfl
@[simp] theorem State.beginCycle_disp : (s.beginCycle).disp = s.disp := rfl
@[simp] theorem State.beginCycle_keys : (s.beginCycle).keys = s.hostTurn.keys := rfl
@[simp] theorem State.beginCycle_wait : (s.beginCycle).wait = s.wait := rfl
@[simp] theorem State.beginCycle_halt : (s.beginCycle).halt = s.halt := rfl
@[simp] theorem State.beginCycle_displayChanged : (s.beginCycle).displayChanged = false := rfl
@[simp] theorem State.beginCycle_tone : (s.beginCycle).tone = s.tone := rfl
@[simp] theorem State.beginCycle_hostScript : (s.beginCycle).hostScript = s.hostScript := rfl
@[simp] theorem State.beginCycle_hostClock : (s.beginCycle).hostClock = s.hostClock := rfl

@[simp] theorem State.readV_beginCycle (r : Nibble) : (s.beginCycle).readV r = s.readV r := rfl
@[simp] theorem State.readMem_beginCycle (k : Nat) : (s.beginCycle).readMem k = s.readMem k := rfl
@[simp] theorem State.hostTurn_beginCycle : (s.beginCycle).hostTurn = s.hostTurn := rfl

/-! ### endCycle -/

@[simp] theorem State.endCycle_v : (s.endCycle).v = s.v := rfl
@[simp] theorem State.endCycle_i : (s.endCycle).i = s.i := rfl
@[simp] theorem State.endCycle_pc : (s.endCycle).pc = s.pc := rfl
@[simp] theorem State.endCycle_sp : (s.endCycle).sp = s.sp := rfl
@[simp] theorem State.endCycle_stack : (s.endCycle).stack = s.stack := rfl
@[simp] theorem State.endCycle_dt : (s.endCycle).dt = tick s.dt := rfl
@[simp] theorem State.endCycle_st : (s.endCycle).st = tick s.st := rfl
@[simp] theorem State.endCycle_mem : (s.endCycle).mem = s.mem := rfl
@[simp] theorem State.endCycle_disp : (s.endCycle).disp = s.disp := rfl
@[simp] theorem State.endCycle_keys : (s.endCycle).keys = s.keys := rfl
@[simp] theorem State.endCycle_wait : (s.endCycle).wait = s.wait := rfl
@[simp] theorem State.endCycle_halt : (s.endCycle).halt = s.halt := rfl
@[simp] theorem State.endCycle_displayChanged : (s.endCycle).displayChanged = s.displayChanged := rfl
@[simp] theorem State.endCycle_tone : (s.endCycle).tone = decide ((tick s.st).toNat > 0) := rfl
@[simp] theorem State.endCycle_hostScript : (s.endCycle).hostScript = s.hostScript.tail := rfl
@[simp] theorem State.endCycle_hostClock : (s.endCycle).hostClock = s.hostClock + 1 := rfl

@[simp] theorem State.readV_endCycle (r : Nibble) : (s.endCycle).readV r = s.readV r := rfl
@[simp] theorem State.readMem_endCycle (k : Nat) : (s.endCycle).readMem k = s.readMem k := rfl

/-! ### Registers -/

/-- Reading any register after one write: the written one has the new value, every other its old one. -/
theorem State.readV_writeV (x r : Nibble) (b : Byte) : (s.writeV x b).readV r = if r = x then b else s.readV r := by
  simp [State.readV, State.writeV, Vector.getElem_set, BitVec.toNat_inj, eq_comm]

@[simp] theorem State.readV_writeV_same (x : Nibble) (b : Byte) : (s.writeV x b).readV x = b := by
  simp [State.readV_writeV]

/-- Two register files that read alike are equal. -/
theorem State.v_ext {s t : State} (h : ∀ r, t.readV r = s.readV r) : t.v = s.v := by
  apply Vector.ext
  intro k hk
  have := h (BitVec.ofNat 4 k)
  simpa [State.readV, Nat.mod_eq_of_lt hk] using this

/-- A file of loaded registers: V[k + j] holds byte j of the list, every other register its old value. -/
theorem State.readV_loadRegisters (bs : List Byte) (r : Nibble) :
    ∀ (k : Nat) (s : State), k + bs.length ≤ 16 → (s.loadRegisters k bs).readV r =
      if h : k ≤ r.toNat ∧ r.toNat < k + bs.length then bs[r.toNat - k]'(by omega) else s.readV r := by
  induction bs with
  | nil => intro k s _; simp [State.loadRegisters]
  | cons b bs ih =>
    intro k s hk
    simp only [List.length_cons] at hk
    rw [State.loadRegisters, ih (k + 1) _ (by omega), State.readV_writeV]
    have hr : r = BitVec.ofNat 4 k ↔ r.toNat = k := by
      rw [← BitVec.toNat_inj, BitVec.toNat_ofNat, Nat.mod_eq_of_lt (by omega : k < 2 ^ 4)]
    by_cases h1 : r.toNat = k
    · simp [hr, h1]
    · by_cases h2 : k + 1 ≤ r.toNat ∧ r.toNat < k + 1 + bs.length
      · have h3 : k ≤ r.toNat ∧ r.toNat < k + (b :: bs).length := by simp; omega
        have h4 : r.toNat - k = (r.toNat - (k + 1)) + 1 := by omega
        rw [dif_pos h2, dif_pos h3]
        simp [h4]
      · have h3 : ¬ (k ≤ r.toNat ∧ r.toNat < k + (b :: bs).length) := by simp; omega
        rw [dif_neg h2, dif_neg h3, if_neg (by rwa [hr])]

/-- Loading registers changes the registers alone. -/
theorem State.loadRegisters_frame (bs : List Byte) :
    ∀ (k : Nat) (s : State), s.loadRegisters k bs = { s with v := (s.loadRegisters k bs).v } := by
  induction bs with
  | nil => intro k s; rfl
  | cons b bs ih =>
    intro k s
    rw [State.loadRegisters, ih (k + 1) (s.writeV _ b)]
    rfl

end Sys2Proof.Machine
end

