-- ==== Sys2Proof/Laws/Cycle.lean ====
section
/-! SUPPORT. What a handler can answer and what a step can do, each said once. -/

namespace Sys2Proof.Machine

/-! ## Fault entry -/

/-- The state a handler's raise leaves. -/
theorem raise_eq (w : Word) (kind : FaultKind) (s : State) :
    raise w kind s = .next { s with pc := s.pc - 2, halt := some ⟨kind, some (s.pc - 2), some w⟩ } := rfl

/-- A handler whose check finds nothing has its effect. -/
theorem guarded_none (w : Word) (s effect : State) : guarded w none s effect = .next effect := rfl

/-- A handler whose check finds a fault raises it. -/
theorem guarded_some (w : Word) (kind : FaultKind) (s effect : State) : guarded w (some kind) s effect = raise w kind s := rfl

/-- A checked handler raises what its check found, or has its effect. -/
theorem guarded_cases (w : Word) (check : Option FaultKind) (s effect : State) :
    (∃ kind, check = some kind ∧ guarded w check s effect = raise w kind s) ∨
      (check = none ∧ guarded w check s effect = .next effect) := by
  cases check with
  | none => exact .inr ⟨rfl, rfl⟩
  | some kind => exact .inl ⟨kind, rfl, rfl⟩

/-! ## Handlers -/

/-- What no handler touches: `HALT` (but for a raise), the key sample, the tone and the host's side. -/
def State.HandlerFrame (s t : State) : Prop :=
  t.halt = s.halt ∧ t.keys = s.keys ∧ t.tone = s.tone ∧ t.hostScript = s.hostScript ∧ t.hostClock = s.hostClock

/-- Every handler answers a next state: its own effect, or its fault. -/
theorem exec_cases (i : Instr) (s : State) :
    (∃ kind, exec i s = raise (encode i) kind s) ∨ ∃ t, exec i s = .next t ∧ s.HandlerFrame t := by
  cases i with
  | ret x =>
    simp only [exec, execRet]
    split
    · exact .inr ⟨_, rfl, rfl, rfl, rfl, rfl, rfl⟩
    · exact .inl ⟨_, rfl⟩
  | call nnn =>
    simp only [exec, execCall]
    split
    · exact .inr ⟨_, rfl, rfl, rfl, rfl, rfl, rfl⟩
    · exact .inl ⟨_, rfl⟩
  | drw x y n =>
    rcases guarded_cases (encode (.drw x y n)) (firstFault readCheck s.dataBase n.toNat) s
      ((s.writeV flagReg (collisionFlag (s.drawn x y n).2)).redraw (s.drawn x y n).1) with ⟨k, _, h⟩ | ⟨_, h⟩
    exacts [.inl ⟨k, h⟩, .inr ⟨_, h, rfl, rfl, rfl, rfl, rfl⟩]
  | skp x =>
    rcases guarded_cases (encode (.skp x)) (keyCheck (s.readV x)) s (s.skipIf (s.keyDown (s.readV x))) with
      ⟨k, _, h⟩ | ⟨_, h⟩
    exacts [.inl ⟨k, h⟩, .inr ⟨_, h, rfl, rfl, rfl, rfl, rfl⟩]
  | sknp x =>
    rcases guarded_cases (encode (.sknp x)) (keyCheck (s.readV x)) s (s.skipIf (!s.keyDown (s.readV x))) with
      ⟨k, _, h⟩ | ⟨_, h⟩
    exacts [.inl ⟨k, h⟩, .inr ⟨_, h, rfl, rfl, rfl, rfl, rfl⟩]
  | ldBVx x =>
    rcases guarded_cases (encode (.ldBVx x)) (firstFault (writeCheck fontWrite) s.dataBase 3) s
      (s.setMem (s.mem.store s.dataBase (bcdDigits (s.readV x)))) with ⟨k, _, h⟩ | ⟨_, h⟩
    exacts [.inl ⟨k, h⟩, .inr ⟨_, h, rfl, rfl, rfl, rfl, rfl⟩]
  | ldMemVx x =>
    rcases guarded_cases (encode (.ldMemVx x)) (firstFault (writeCheck fontWrite) s.dataBase (registerCount x)) s
      (s.setMem (s.mem.store s.dataBase (s.registers (registerCount x)))) with ⟨k, _, h⟩ | ⟨_, h⟩
    exacts [.inl ⟨k, h⟩, .inr ⟨_, h, rfl, rfl, rfl, rfl, rfl⟩]
  | ldVxMem x =>
    rcases guarded_cases (encode (.ldVxMem x)) (firstFault readCheck s.dataBase (registerCount x)) s
      (s.loadRegisters 0 (s.mem.load s.dataBase (registerCount x))) with ⟨k, _, h⟩ | ⟨_, h⟩
    · exact .inl ⟨k, h⟩
    · refine .inr ⟨_, h, ?_⟩
      rw [State.loadRegisters_frame]
      exact ⟨rfl, rfl, rfl, rfl, rfl⟩
  | _ => exact .inr ⟨_, rfl, rfl, rfl, rfl, rfl, rfl⟩

/-! ## Steps -/

/-- A tick takes one from a timer above 0. -/
theorem toNat_tick (b : Byte) : (tick b).toNat = b.toNat - 1 := by
  have := b.isLt
  unfold tick
  split
  · simp [BitVec.toNat_sub]; omega
  · omega

/-- PC back at the instruction's address after the advance (10_state.md R25). -/
theorem pc_retreat (a : Word) : a + 2 - 2 = a := by simp

/-- A cycle whose handler raised: only `HALT` differs from the state the cycle started in. -/
theorem finishCycle_raise (s : State) (w : Word) (kind : FaultKind) :
    finishCycle s (raise w kind s.beginCycle) = .next (s.enterFault ⟨kind, some s.pc, some w⟩) := by
  simp [raise, finishCycle]

/-- A cycle whose handler did not raise: the tick follows. -/
theorem finishCycle_next {s t : State} (h : t.halt = none) : finishCycle s (.next t) = .next t.endCycle := by
  simp [finishCycle, h]

/-- What a cycle can do. -/
inductive CycleCase (s s' : State) : Prop where
  /-- A fetch check fails (40_step_engine.md R102, R103). -/
  | fetchFault (kind : FaultKind) (check : fetchCheck oddFetch s.pc = some kind)
      (result : s' = s.enterFault ⟨kind, some s.pc, none⟩)
  /-- The word is no instruction (R104). -/
  | unrecognized (check : fetchCheck oddFetch s.pc = none) (r : Reject) (word : decode (s.mem.wordAt s.pc.toNat) = .error r)
      (result : s' = s.enterFault ⟨.unrecognizedInstruction, some s.pc, some (s.mem.wordAt s.pc.toNat)⟩)
  /-- The handler raises (R109). -/
  | raised (check : fetchCheck oddFetch s.pc = none) (i : Instr) (word : decode (s.mem.wordAt s.pc.toNat) = .ok i)
      (kind : FaultKind) (handler : exec i s.beginCycle = raise (encode i) kind s.beginCycle)
      (result : s' = s.enterFault ⟨kind, some s.pc, some (encode i)⟩)
  /-- The cycle completes (R105, R106). -/
  | completed (check : fetchCheck oddFetch s.pc = none) (i : Instr) (word : decode (s.mem.wordAt s.pc.toNat) = .ok i)
      (t : State) (handler : exec i s.beginCycle = .next t) (running : t.halt = none) (result : s' = t.endCycle)

/-- Every cycle of a core that has not faulted answers a next state, in one of the four ways. -/
theorem cycle_cases {s : State} (h : s.halt = none) : ∃ s', cycle s = .next s' ∧ CycleCase s s' := by
  unfold cycle
  cases hc : fetchCheck oddFetch s.pc with
  | some kind => exact ⟨_, rfl, .fetchFault kind hc rfl⟩
  | none =>
    simp only [runWord]
    cases hw : decode (s.mem.wordAt s.pc.toNat) with
    | error r => exact ⟨_, rfl, .unrecognized hc r hw rfl⟩
    | ok i =>
      rcases exec_cases i s.beginCycle with ⟨kind, hx⟩ | ⟨t, hx, ht, _⟩
      · simp only [hx, finishCycle_raise]
        exact ⟨_, rfl, .raised hc i hw kind hx rfl⟩
      · have ht' : t.halt = none := ht.trans h
        simp only [hx, finishCycle_next ht']
        exact ⟨_, rfl, .completed hc i hw t hx ht' rfl⟩

/-- What a step can do: a cycle while Running, a host turn while AwaitingKey. -/
theorem step_cases {s s' : State} (h : step s = .next s') :
    s.halt = none ∧ ((s.wait = .running ∧ CycleCase s s') ∨ ∃ x, s.wait = .awaitingKey x ∧ s' = waitTurn s) := by
  unfold step turn at h
  cases hh : s.halt with
  | some f => rw [hh] at h; cases h
  | none =>
    rw [hh] at h
    refine ⟨rfl, ?_⟩
    cases hw : s.wait with
    | running =>
      rw [hw] at h
      obtain ⟨t, ht, hcase⟩ := cycle_cases hh
      obtain rfl : t = s' := by simpa [ht] using h
      exact .inl ⟨rfl, hcase⟩
    | awaitingKey x =>
      rw [hw] at h
      exact .inr ⟨x, rfl, by simpa using h.symm⟩

/-- A step of a running core is its cycle. -/
theorem step_running {s : State} (h : s.halt = none) (hw : s.wait = .running) : step s = cycle s := by
  simp [step, turn, h, hw]

/-- A step of a waiting core is its host turn. -/
theorem step_waiting {s : State} {x : Nibble} (h : s.halt = none) (hw : s.wait = .awaitingKey x) :
    step s = .next (waitTurn s) := by
  simp [step, turn, h, hw]

/-- A host turn while waiting: the edge's effect, or none; then the turn is over. -/
theorem waitTurn_eq {s : State} {x : Nibble} (hw : s.wait = .awaitingKey x) :
    waitTurn s = match s.hostTurn.edge with
      | some k => ((s.writeV x (k.setWidth 8)).setWait .running).endTurn
      | none => s.endTurn := by
  cases he : s.hostTurn.edge <;> simp [waitTurn, State.keyEdge, hw, he]

end Sys2Proof.Machine
end

