-- ==== Sys2Proof/Laws/Display.lean ====
section
/-! SUPPORT. The display buffer: one cell after a flip, and the blit in closed form: which cells change, and when there is
a collision. The closed form rests on no cell being hit twice within one draw (44_display.md R192). -/

namespace Sys2Proof.Machine

theorem Display.cell_flip (d : Display) (c c' : Fin 64) (r r' : Fin 32) :
    (d.flip c r).cell c' r' = if c' = c ∧ r' = r then !d.cell c r else d.cell c' r' := by
  unfold Display.flip Display.cell
  by_cases hc : c' = c
  · subst hc
    by_cases hr : r' = r
    · subst hr; simp
    · have : r.val ≠ r'.val := fun h => hr (Fin.ext h.symm)
      simp [hr, this]
  · have : c.val ≠ c'.val := fun h => hc (Fin.ext h.symm)
    simp [hc, this]

theorem Display.cell_clear (c : Fin 64) (r : Fin 32) : Display.clear.cell c r = false := by
  simp [Display.cell, Display.clear]

/-- Two displays with equal cells are equal. -/
theorem Display.ext_cell {d e : Display} (h : ∀ c r, d.cell c r = e.cell c r) : d = e := by
  apply Vector.ext
  intro c hc
  apply Vector.ext
  intro r hr
  exact h ⟨c, hc⟩ ⟨r, hr⟩

/-- Two changes of one cell that never both happen are one change. -/
theorem not_iff_or_of_disjoint {A P Q : Prop} (h : ¬(P ∧ Q)) : ¬(¬(A ↔ P) ↔ Q) ↔ ¬(A ↔ P ∨ Q) := by
  by_cases A <;> by_cases P <;> by_cases Q <;> simp_all

/-! ## One row -/

/-- Bit `j` of a sprite row at origin column `ox` is set and lands in column `c`. -/
def RowHits (ox : Nat) (row : Byte) (n : Nat) (c : Fin 64) : Prop :=
  ∃ j < n, row.getLsbD (7 - j) = true ∧ spriteColumn ox j = c

theorem spriteColumn_inj {ox j k : Nat} (hj : j < 8) (hk : k < 8) (h : spriteColumn ox j = spriteColumn ox k) : j = k := by
  have := congrArg Fin.val h
  simp [spriteColumn, Fin.ofNat] at this
  omega

theorem spriteRow_inj {oy i k : Nat} (hi : i < 32) (hk : k < 32) (h : spriteRow oy i = spriteRow oy k) : i = k := by
  have := congrArg Fin.val h
  simp [spriteRow, Fin.ofNat] at this
  omega

/-- The first `n` bits of a row: a cell changes exactly when a set bit lands in it, and a collision is a set cell that changes. -/
theorem blitRow_prefix (ox : Nat) (r : Fin 32) (row : Byte) (d : Display) (hit : Bool) (n : Nat) (hn : n ≤ 8) :
    let acc := (List.range n).foldl (fun acc j => blitBit (row.getLsbD (7 - j)) (spriteColumn ox j) r acc) (d, hit)
    (∀ c r', acc.1.cell c r' = true ↔ ¬(d.cell c r' = true ↔ r' = r ∧ RowHits ox row n c)) ∧
    (acc.2 = true ↔ hit = true ∨ ∃ c, RowHits ox row n c ∧ d.cell c r = true) := by
  induction n with
  | zero => simp [RowHits]
  | succ n ih =>
    obtain ⟨ih1, ih2⟩ := ih (by omega)
    have hsucc : ∀ c, RowHits ox row (n + 1) c ↔
        RowHits ox row n c ∨ (row.getLsbD (7 - n) = true ∧ spriteColumn ox n = c) := by
      intro c
      constructor
      · rintro ⟨j, hj, hb, hc⟩
        by_cases hjn : j = n
        · subst hjn; exact .inr ⟨hb, hc⟩
        · exact .inl ⟨j, by omega, hb, hc⟩
      · rintro (⟨j, hj, hb, hc⟩ | ⟨hb, hc⟩)
        exacts [⟨j, by omega, hb, hc⟩, ⟨n, by omega, hb, hc⟩]
    have hfresh : ¬ RowHits ox row n (spriteColumn ox n) := by
      rintro ⟨j, hj, _, hc⟩
      exact absurd (spriteColumn_inj (by omega) (by omega) hc) (by omega)
    simp only [List.range_succ, List.foldl_append, List.foldl_cons, List.foldl_nil]
    generalize (List.range n).foldl (fun acc j => blitBit (row.getLsbD (7 - j)) (spriteColumn ox j) r acc) (d, hit) = acc at ih1 ih2
    simp only [hsucc]
    unfold blitBit
    by_cases hb : row.getLsbD (7 - n) = true
    · have hcell : acc.1.cell (spriteColumn ox n) r = d.cell (spriteColumn ox n) r := by
        have := ih1 (spriteColumn ox n) r
        simp only [hfresh, and_false, iff_false, not_not] at this
        exact Bool.eq_iff_iff.mpr this
      simp only [hb, if_true, true_and]
      refine ⟨fun c r' => ?_, ?_⟩
      · rw [Display.cell_flip, hcell]
        by_cases h : c = spriteColumn ox n ∧ r' = r
        · rw [if_pos h, h.1, h.2]
          cases d.cell (spriteColumn ox n) r <;> simp
        · have hsame : (r' = r ∧ (RowHits ox row n c ∨ spriteColumn ox n = c)) ↔ (r' = r ∧ RowHits ox row n c) :=
            ⟨fun ⟨a, b⟩ => ⟨a, b.resolve_right fun hb => h ⟨hb.symm, a⟩⟩, fun ⟨a, b⟩ => ⟨a, .inl b⟩⟩
          rw [if_neg h, ih1, hsame]
      · rw [Bool.or_eq_true, ih2, hcell]
        constructor
        · rintro ((h | ⟨c, h1, h2⟩) | h)
          exacts [.inl h, .inr ⟨c, .inl h1, h2⟩, .inr ⟨_, .inr rfl, h⟩]
        · rintro (h | ⟨c, h1 | rfl, h2⟩)
          exacts [.inl (.inl h), .inl (.inr ⟨c, h1, h2⟩), .inr h2]
    · simp only [hb, if_false, Bool.false_eq_true, false_and, or_false]
      exact ⟨ih1, ih2⟩

/-! ## All rows -/

/-- A set bit of sprite row `i` (counted from `i0`) lands in cell `(c, r)`. -/
def SpriteHits (ox oy i0 : Nat) (rows : List Byte) (c : Fin 64) (r : Fin 32) : Prop :=
  ∃ (i : Nat) (h : i < rows.length), spriteRow oy (i0 + i) = r ∧ RowHits ox rows[i] 8 c

theorem spriteHits_nil (ox oy i0 : Nat) (c : Fin 64) (r : Fin 32) : ¬ SpriteHits ox oy i0 [] c r := by
  rintro ⟨i, h, _⟩; simp at h

theorem spriteHits_cons (ox oy i0 : Nat) (row : Byte) (rows : List Byte) (c : Fin 64) (r : Fin 32) :
    SpriteHits ox oy i0 (row :: rows) c r ↔
      (r = spriteRow oy i0 ∧ RowHits ox row 8 c) ∨ SpriteHits ox oy (i0 + 1) rows c r := by
  constructor
  · rintro ⟨i, h, hr, hc⟩
    cases i with
    | zero => exact .inl ⟨hr.symm, hc⟩
    | succ i => exact .inr ⟨i, by simpa using h, by rw [← hr]; congr 1; omega, hc⟩
  · rintro (⟨hr, hc⟩ | ⟨i, h, hr, hc⟩)
    · exact ⟨0, by simp, hr.symm, hc⟩
    · exact ⟨i + 1, by simpa using h, by rw [← hr]; congr 1; omega, by simpa using hc⟩

/-- Rows blitted from index `i0` on. -/
theorem blitRows_spec (ox oy : Nat) (rows : List Byte) : ∀ (i0 : Nat) (d : Display) (hit : Bool), i0 + rows.length ≤ 32 →
    (∀ c r, (blitRows ox oy i0 rows (d, hit)).1.cell c r = true ↔ ¬(d.cell c r = true ↔ SpriteHits ox oy i0 rows c r)) ∧
    ((blitRows ox oy i0 rows (d, hit)).2 = true ↔ hit = true ∨ ∃ c r, SpriteHits ox oy i0 rows c r ∧ d.cell c r = true) := by
  induction rows with
  | nil => intro i0 d hit _; simp [blitRows, spriteHits_nil]
  | cons row rows ih =>
    intro i0 d hit hlen
    simp only [List.length_cons] at hlen
    have hrow := blitRow_prefix ox (spriteRow oy i0) row d hit 8 le_rfl
    simp only [blitRows]
    unfold blitRow
    generalize hacc : (List.range 8).foldl
      (fun acc j => blitBit (row.getLsbD (7 - j)) (spriteColumn ox j) (spriteRow oy i0) acc) (d, hit) = acc at hrow
    obtain ⟨d', hit'⟩ := acc
    obtain ⟨h1, h2⟩ := hrow
    obtain ⟨ih1, ih2⟩ := ih (i0 + 1) d' hit' (by omega)
    have hlater : ∀ c r, SpriteHits ox oy (i0 + 1) rows c r → r ≠ spriteRow oy i0 := by
      rintro c r ⟨i, hi, hr, _⟩ rfl
      exact absurd (spriteRow_inj (by omega) (by omega) hr) (by omega)
    simp only at h1 h2
    refine ⟨fun c r => ?_, ?_⟩
    · rw [ih1, h1, spriteHits_cons]
      exact not_iff_or_of_disjoint fun h => hlater c r h.2 h.1.1
    · rw [ih2, h2]
      constructor
      · rintro ((h | ⟨c, hc, hd⟩) | ⟨c, r, hs, hd⟩)
        · exact .inl h
        · exact .inr ⟨c, _, (spriteHits_cons ..).mpr (.inl ⟨rfl, hc⟩), hd⟩
        · refine .inr ⟨c, r, (spriteHits_cons ..).mpr (.inr hs), ?_⟩
          have hno : ¬(r = spriteRow oy i0 ∧ RowHits ox row 8 c) := fun h => hlater c r hs h.1
          simpa [h1, hno] using hd
      · rintro (h | ⟨c, r, hs, hd⟩)
        · exact .inl (.inl h)
        · rcases (spriteHits_cons ..).mp hs with ⟨rfl, hc⟩ | hs
          · exact .inl (.inr ⟨c, hc, hd⟩)
          · refine .inr ⟨c, r, hs, ?_⟩
            have hno : ¬(r = spriteRow oy i0 ∧ RowHits ox row 8 c) := fun h => hlater c r hs h.1
            simpa [h1, hno] using hd

/-- Which cells a blit leaves set: a cell changes exactly when a set sprite bit lands in it. -/
theorem blit_cell (d : Display) (ox oy : Nat) (rows : List Byte) (h : rows.length ≤ 32) (c : Fin 64) (r : Fin 32) :
    (blit d ox oy rows).1.cell c r = true ↔ ¬(d.cell c r = true ↔ SpriteHits ox oy 0 rows c r) :=
  (blitRows_spec ox oy rows 0 d false (by omega)).1 c r

/-- A collision is a set cell that a set sprite bit lands in. -/
theorem blit_hit (d : Display) (ox oy : Nat) (rows : List Byte) (h : rows.length ≤ 32) :
    (blit d ox oy rows).2 = true ↔ ∃ c r, SpriteHits ox oy 0 rows c r ∧ d.cell c r = true := by
  simpa [blit] using (blitRows_spec ox oy rows 0 d false (by omega)).2

end Sys2Proof.Machine
end

