-- ==== Sys2Proof/Laws/HostSide.lean ====
section
/-! SUPPORT. What the collaborators get from a step, by the way it ended. -/

namespace Sys2Proof.Machine

/-- Which steps are completed cycles. -/
theorem State.completes_iff {s s' : State} : s.completes s' = true ↔ s.wait = .running ∧ s'.halt = none := by
  simp [State.completes]

/-- A step that ends with `HALT` set presents nothing, whatever the strobe holds. -/
theorem State.presented_of_halt {s s' : State} {f : FaultRecord} (h : s'.halt = some f) : s.presented s' = none := by
  simp [State.presented, State.completes, h]

/-- A step of a waiting core presents nothing, whatever the strobe holds. -/
theorem State.presented_of_waiting {s s' : State} {x : Nibble} (h : s.wait = .awaitingKey x) : s.presented s' = none := by
  simp [State.presented, State.completes, h]

/-- A completed cycle presents the grid exactly when the strobe is set. -/
theorem State.presented_of_completed {s s' : State} (hw : s.wait = .running) (hh : s'.halt = none) :
    s.presented s' = if s'.displayChanged then some s'.disp else none := by
  simp [State.presented, State.completes, hw, hh]

/-- The exit status of a core that has faulted. -/
theorem State.exitStatus_of_halt {s : State} {f : FaultRecord} (h : s.halt = some f) : s.exitStatus = some (exitCode f.kind) := by
  simp [State.exitStatus, h]

/-- A core that has not faulted has no exit status. -/
theorem State.exitStatus_of_not_halted {s : State} (h : s.halt = none) : s.exitStatus = none := by
  simp [State.exitStatus, h]

end Sys2Proof.Machine
end

