-- ==== Sys2Proof/Laws/Memory.lean ====
section
/-! SUPPORT. Memory: what a read gives after a write or a store, that every operation keeps the canonical form, and what
the checks over an address range find. -/

namespace Sys2Proof.Machine

/-! ## Reads after writes -/

theorem Memory.read_nil (a : Nat) : Memory.read [] a = Memory.initial a := rfl

/-- An address below every listed one reads its reset contents. -/
theorem Memory.read_of_lt {m : Memory} {a : Nat} (h : ∀ c ∈ m, a < c.1) : m.read a = Memory.initial a := by
  induction m with
  | nil => rfl
  | cons c m ih =>
    have hc := h c (by simp)
    rw [Memory.read, if_neg (by omega), ih fun d hd => h d (by simp [hd])]

/-- The listing of one cell before a memory that lists only higher addresses. -/
theorem Memory.read_cell_append {m : Memory} {a : Nat} (b : Byte) (h : ∀ c ∈ m, a < c.1) (k : Nat) :
    Memory.read (Memory.cell a b ++ m) k = if k = a then b else m.read k := by
  unfold Memory.cell
  split
  · rename_i hb
    by_cases hk : k = a
    · subst hk; simp [hb, Memory.read_of_lt h]
    · simp [hk]
  · simp [Memory.read, eq_comm]

/-- Read after write, in a memory whose addresses rise strictly. -/
theorem Memory.read_write {m : Memory} (h : m.Pairwise fun c d => c.1 < d.1) (a : Nat) (b : Byte) (k : Nat) :
    (m.write a b).read k = if k = a then b else m.read k := by
  induction m with
  | nil => simpa [Memory.write] using Memory.read_cell_append (m := []) b (by simp) k
  | cons c m ih =>
    obtain ⟨hc, hm⟩ := List.pairwise_cons.mp h
    rw [Memory.write]
    split
    · rename_i hlt
      exact Memory.read_cell_append b (by intro d hd; rcases List.mem_cons.mp hd with rfl | hd; exacts [hlt, hlt.trans (hc d hd)]) k
    · split
      · rename_i heq
        rw [Memory.read_cell_append b (fun d hd => heq ▸ hc d hd)]
        by_cases hk : k = a
        · simp [hk]
        · rw [if_neg hk, if_neg hk, Memory.read, if_neg (by omega)]
      · rw [Memory.read, Memory.read, ih hm]
        by_cases hk : k = a
        · subst hk; rw [if_neg (by omega)]; simp
        · simp [hk]

/-! ## The canonical form -/

theorem Memory.wf_nil : Memory.wf [] := by simp [Memory.wf]

theorem Memory.mem_write {m : Memory} {a : Nat} {b : Byte} {c : Host.Cell} (h : c ∈ m.write a b) :
    c ∈ Memory.cell a b ∨ c ∈ m := by
  induction m with
  | nil => exact .inl h
  | cons d m ih =>
    rw [Memory.write] at h
    split at h
    · simpa using h
    · split at h
      · rcases List.mem_append.mp h with h | h
        exacts [.inl h, .inr (by simp [h])]
      · rcases List.mem_cons.mp h with rfl | h
        · exact .inr (by simp)
        · rcases ih h with h | h
          exacts [.inl h, .inr (by simp [h])]

theorem Memory.mem_cell {a : Nat} {b : Byte} {c : Host.Cell} (h : c ∈ Memory.cell a b) :
    c.1 = a ∧ c.2 = b ∧ b ≠ Memory.initial a := by
  unfold Memory.cell at h
  split at h
  · simp at h
  · simp at h; exact ⟨by simp [h], by simp [h], ‹_›⟩

theorem Memory.pairwise_cell_append {m : Memory} {a : Nat} (b : Byte) (h : ∀ c ∈ m, a < c.1)
    (hm : m.Pairwise fun c d => c.1 < d.1) : (Memory.cell a b ++ m).Pairwise fun c d => c.1 < d.1 := by
  unfold Memory.cell
  split
  · simpa using hm
  · simpa using ⟨fun a b hab => h (a, b) hab, hm⟩

theorem Memory.pairwise_write {m : Memory} (h : m.Pairwise fun c d => c.1 < d.1) (a : Nat) (b : Byte) :
    (m.write a b).Pairwise fun c d => c.1 < d.1 := by
  induction m with
  | nil => simpa [Memory.write] using Memory.pairwise_cell_append (m := []) b (by simp) .nil
  | cons c m ih =>
    obtain ⟨hc, hm⟩ := List.pairwise_cons.mp h
    rw [Memory.write]
    split
    · rename_i hlt
      exact Memory.pairwise_cell_append b (by intro d hd; rcases List.mem_cons.mp hd with rfl | hd; exacts [hlt, hlt.trans (hc d hd)]) h
    · split
      · rename_i heq
        exact Memory.pairwise_cell_append b (fun d hd => heq ▸ hc d hd) hm
      · refine List.pairwise_cons.mpr ⟨fun d hd => ?_, ih hm⟩
        rcases Memory.mem_write hd with hd | hd
        · rw [(Memory.mem_cell hd).1]; omega
        · exact hc d hd

/-- A write into the address space keeps the canonical form. -/
theorem Memory.wf_write {m : Memory} (h : m.wf) {a : Nat} (ha : a < 4096) (b : Byte) : (m.write a b).wf := by
  refine ⟨Memory.pairwise_write h.1 a b, fun c hc => ?_⟩
  rcases Memory.mem_write hc with hc | hc
  · obtain ⟨h1, h2, h3⟩ := Memory.mem_cell hc
    exact ⟨h1 ▸ ha, by rw [h1, h2]; exact h3⟩
  · exact h.2 c hc

/-- A store into the address space keeps the canonical form. -/
theorem Memory.wf_store (bs : List Byte) : ∀ (m : Memory) (a : Nat), m.wf → a + bs.length ≤ 4096 → (m.store a bs).wf := by
  induction bs with
  | nil => intro m a h _; exact h
  | cons b bs ih =>
    intro m a h ha
    simp only [List.length_cons] at ha
    exact ih _ _ (Memory.wf_write h (by omega) b) (by omega)

/-- Read after a store: the stored bytes in order, and every other address as before. -/
theorem Memory.read_store (bs : List Byte) (k : Nat) : ∀ (m : Memory) (a : Nat), (m.Pairwise fun c d => c.1 < d.1) →
    (m.store a bs).read k = if h : a ≤ k ∧ k < a + bs.length then bs[k - a]'(by omega) else m.read k := by
  induction bs with
  | nil => intro m a _; simp [Memory.store]
  | cons b bs ih =>
    intro m a h
    rw [Memory.store, ih _ _ (Memory.pairwise_write h a b), Memory.read_write h]
    by_cases h1 : k = a
    · subst h1; simp
    · by_cases h2 : a + 1 ≤ k ∧ k < a + 1 + bs.length
      · have h3 : a ≤ k ∧ k < a + (b :: bs).length := by simp; omega
        have h4 : k - a = (k - (a + 1)) + 1 := by omega
        rw [dif_pos h2, dif_pos h3]
        simp [h4]
      · have h3 : ¬ (a ≤ k ∧ k < a + (b :: bs).length) := by simp; omega
        rw [dif_neg h2, dif_neg h3, if_neg h1]

/-- A canonical memory is determined by what it reads. -/
theorem Memory.ext_read {m n : Memory} (hm : m.wf) (hn : n.wf) (h : ∀ a, m.read a = n.read a) : m = n := by
  induction m generalizing n with
  | nil =>
    cases n with
    | nil => rfl
    | cons d n =>
      have h1 := h d.1
      rw [Memory.read_nil, Memory.read, if_pos rfl] at h1
      exact absurd h1.symm (hn.2 d (by simp)).2
  | cons c m ih =>
    obtain ⟨hc, hm'⟩ := List.pairwise_cons.mp hm.1
    cases n with
    | nil =>
      have h1 := h c.1
      rw [Memory.read_nil, Memory.read, if_pos rfl] at h1
      exact absurd h1 (hm.2 c (by simp)).2
    | cons d n =>
      obtain ⟨hd, hn'⟩ := List.pairwise_cons.mp hn.1
      have h1 := h c.1
      have h2 := h d.1
      rw [Memory.read, if_pos rfl, Memory.read] at h1
      rw [Memory.read, Memory.read, if_pos rfl] at h2
      have hcd : c.1 = d.1 := by
        rcases lt_trichotomy c.1 d.1 with hlt | heq | hgt
        · rw [if_neg (by omega), Memory.read_of_lt fun e he => hlt.trans (hd e he)] at h1
          exact absurd h1 (hm.2 c (by simp)).2
        · exact heq
        · rw [if_neg (by omega), Memory.read_of_lt fun e he => hgt.trans (hc e he)] at h2
          exact absurd h2.symm (hn.2 d (by simp)).2
      rw [if_pos hcd.symm] at h1
      have hm1 : Memory.wf m := ⟨hm', fun e he => hm.2 e (by simp [he])⟩
      have hn1 : Memory.wf n := ⟨hn', fun e he => hn.2 e (by simp [he])⟩
      have := ih hm1 hn1 fun a => by
        by_cases ha : a = c.1
        · rw [ha, Memory.read_of_lt hc, Memory.read_of_lt (hcd ▸ hd)]
        · have h3 := h a
          rwa [Memory.read, if_neg (by omega), Memory.read, if_neg (by omega)] at h3
      rw [this, Prod.ext hcd h1]

/-! ## Loads and checks -/

@[simp] theorem Memory.length_load (m : Memory) (a n : Nat) : (m.load a n).length = n := by simp [Memory.load]

@[simp] theorem Memory.getElem_load (m : Memory) (a n k : Nat) (h : k < (m.load a n).length) :
    (m.load a n)[k] = m.read (a + k) := by simp [Memory.load]

theorem readCheck_eq_none {a : Nat} : readCheck a = none ↔ a ≤ 0xFFF := by
  unfold readCheck; split <;> simp <;> omega

theorem writeCheck_eq_none {p : Config.FontWrite} {a : Nat} :
    writeCheck p a = none ↔ a ≤ 0xFFF ∧ (p = .fault → 0x04F < a) := by
  unfold writeCheck
  split
  · simp; omega
  · split
    · rename_i h1 h2; simp [h2.2]; omega
    · rename_i h1 h2
      exact ⟨fun _ => ⟨by omega, fun hp => by by_contra hlt; exact h2 ⟨by omega, hp⟩⟩, fun _ => rfl⟩

/-- A range passes a check when each of its addresses does. -/
theorem firstFault_eq_none {check : Nat → Option FaultKind} {base n : Nat} :
    firstFault check base n = none ↔ ∀ k < n, check (base + k) = none := by
  simp [firstFault]

/-- The fault found is that of the lowest address that has one. -/
theorem firstFault_eq_some {check : Nat → Option FaultKind} {base n : Nat} {kind : FaultKind} :
    firstFault check base n = some kind ↔
      ∃ k < n, check (base + k) = some kind ∧ ∀ j < k, check (base + j) = none := by
  induction n with
  | zero => simp [firstFault]
  | succ n ih =>
    have hsplit : firstFault check base (n + 1) = (firstFault check base n).or (check (base + n)) := by
      simp [firstFault, List.range_succ, List.findSome?_append]
    rw [hsplit]
    cases hf : firstFault check base n with
    | some k0 =>
      rw [hf] at ih
      constructor
      · intro h
        obtain ⟨k, hk, h1⟩ := ih.mp (by simpa using h)
        exact ⟨k, by omega, h1⟩
      · rintro ⟨k, hk, h1, h2⟩
        by_cases hkn : k < n
        · simpa using ih.mpr ⟨k, hkn, h1, h2⟩
        · have hnone := (firstFault_eq_none (n := n)).mpr fun j hj => h2 j (by omega : j < k)
          rw [hf] at hnone; cases hnone
    | none =>
      rw [hf] at ih
      have hall := firstFault_eq_none.mp hf
      constructor
      · intro h; exact ⟨n, by omega, by simpa using h, hall⟩
      · rintro ⟨k, hk, h1, _⟩
        by_cases hkn : k < n
        · rw [hall k hkn] at h1; cases h1
        · obtain rfl : k = n := by omega
          simpa using h1

/-- The fetch checks pass exactly at the addresses a fetch may read. -/
theorem fetchCheck_eq_none {p : Config.OddFetch} {pc : Word} :
    fetchCheck p pc = none ↔ pc.toNat ≤ 0xFFE ∧ (p = .fault → pc.toNat % 2 = 0) := by
  unfold fetchCheck
  split
  · simp; omega
  · split
    · rename_i h1 h2; simp [h2.2]; omega
    · rename_i h1 h2
      exact ⟨fun _ => ⟨by omega, fun hp => by by_contra hodd; exact h2 ⟨by omega, hp⟩⟩, fun _ => rfl⟩

end Sys2Proof.Machine
end

