-- ==== Sys2Proof/Laws/PerInstr.lean ====
section
/-! SUPPORT. One law per instruction: its word is matched by its own row of the dispatch table, whose handler reads the
same operands back (30_encoding.md R77, R78). -/

namespace Sys2Proof.Laws.EncodingInTable

/-- The instruction's word is matched by the row at its place in R78, and that row's handler gets its operands. -/
def Statement (i : Instr) : Prop := ∃ e ∈ dispatchTable, e.matches (encode i) = true ∧ e.build (encode i) = i

theorem cls (x : Nibble) : Statement (.cls x) :=
  ⟨dispatchTable[0], List.getElem_mem _, by simp [dispatchTable, tableLow, tableAlu, tableHigh, tableMisc, TableEntry.matches, encode]; decide,
    by simp [dispatchTable, tableLow, tableAlu, tableHigh, tableMisc, encode]⟩

theorem ret (x : Nibble) : Statement (.ret x) :=
  ⟨dispatchTable[1], List.getElem_mem _, by simp [dispatchTable, tableLow, tableAlu, tableHigh, tableMisc, TableEntry.matches, encode]; decide,
    by simp [dispatchTable, tableLow, tableAlu, tableHigh, tableMisc, encode]⟩

theorem jp (nnn : Imm12) : Statement (.jp nnn) :=
  ⟨dispatchTable[2], List.getElem_mem _, by simp [dispatchTable, tableLow, tableAlu, tableHigh, tableMisc, TableEntry.matches, encode]; decide,
    by simp [dispatchTable, tableLow, tableAlu, tableHigh, tableMisc, encode]⟩

theorem call (nnn : Imm12) : Statement (.call nnn) :=
  ⟨dispatchTable[3], List.getElem_mem _, by simp [dispatchTable, tableLow, tableAlu, tableHigh, tableMisc, TableEntry.matches, encode]; decide,
    by simp [dispatchTable, tableLow, tableAlu, tableHigh, tableMisc, encode]⟩

theorem seImm (x : Nibble) (kk : Byte) : Statement (.seImm x kk) :=
  ⟨dispatchTable[4], List.getElem_mem _, by simp [dispatchTable, tableLow, tableAlu, tableHigh, tableMisc, TableEntry.matches, encode]; decide,
    by simp [dispatchTable, tableLow, tableAlu, tableHigh, tableMisc, encode]⟩

theorem sneImm (x : Nibble) (kk : Byte) : Statement (.sneImm x kk) :=
  ⟨dispatchTable[5], List.getElem_mem _, by simp [dispatchTable, tableLow, tableAlu, tableHigh, tableMisc, TableEntry.matches, encode]; decide,
    by simp [dispatchTable, tableLow, tableAlu, tableHigh, tableMisc, encode]⟩

theorem seReg (x : Nibble) (y : Nibble) (n : Nibble) : Statement (.seReg x y n) :=
  ⟨dispatchTable[6], List.getElem_mem _, by simp [dispatchTable, tableLow, tableAlu, tableHigh, tableMisc, TableEntry.matches, encode]; decide,
    by simp [dispatchTable, tableLow, tableAlu, tableHigh, tableMisc, encode]⟩

theorem ldImm (x : Nibble) (kk : Byte) : Statement (.ldImm x kk) :=
  ⟨dispatchTable[7], List.getElem_mem _, by simp [dispatchTable, tableLow, tableAlu, tableHigh, tableMisc, TableEntry.matches, encode]; decide,
    by simp [dispatchTable, tableLow, tableAlu, tableHigh, tableMisc, encode]⟩

theorem addImm (x : Nibble) (kk : Byte) : Statement (.addImm x kk) :=
  ⟨dispatchTable[8], List.getElem_mem _, by simp [dispatchTable, tableLow, tableAlu, tableHigh, tableMisc, TableEntry.matches, encode]; decide,
    by simp [dispatchTable, tableLow, tableAlu, tableHigh, tableMisc, encode]⟩

theorem ldReg (x : Nibble) (y : Nibble) : Statement (.ldReg x y) :=
  ⟨dispatchTable[9], List.getElem_mem _, by simp [dispatchTable, tableLow, tableAlu, tableHigh, tableMisc, TableEntry.matches, encode]; decide,
    by simp [dispatchTable, tableLow, tableAlu, tableHigh, tableMisc, encode]⟩

theorem orReg (x : Nibble) (y : Nibble) : Statement (.orReg x y) :=
  ⟨dispatchTable[10], List.getElem_mem _, by simp [dispatchTable, tableLow, tableAlu, tableHigh, tableMisc, TableEntry.matches, encode]; decide,
    by simp [dispatchTable, tableLow, tableAlu, tableHigh, tableMisc, encode]⟩

theorem andReg (x : Nibble) (y : Nibble) : Statement (.andReg x y) :=
  ⟨dispatchTable[11], List.getElem_mem _, by simp [dispatchTable, tableLow, tableAlu, tableHigh, tableMisc, TableEntry.matches, encode]; decide,
    by simp [dispatchTable, tableLow, tableAlu, tableHigh, tableMisc, encode]⟩

theorem xorReg (x : Nibble) (y : Nibble) : Statement (.xorReg x y) :=
  ⟨dispatchTable[12], List.getElem_mem _, by simp [dispatchTable, tableLow, tableAlu, tableHigh, tableMisc, TableEntry.matches, encode]; decide,
    by simp [dispatchTable, tableLow, tableAlu, tableHigh, tableMisc, encode]⟩

theorem addReg (x : Nibble) (y : Nibble) : Statement (.addReg x y) :=
  ⟨dispatchTable[13], List.getElem_mem _, by simp [dispatchTable, tableLow, tableAlu, tableHigh, tableMisc, TableEntry.matches, encode]; decide,
    by simp [dispatchTable, tableLow, tableAlu, tableHigh, tableMisc, encode]⟩

theorem subReg (x : Nibble) (y : Nibble) : Statement (.subReg x y) :=
  ⟨dispatchTable[14], List.getElem_mem _, by simp [dispatchTable, tableLow, tableAlu, tableHigh, tableMisc, TableEntry.matches, encode]; decide,
    by simp [dispatchTable, tableLow, tableAlu, tableHigh, tableMisc, encode]⟩

theorem shr (x : Nibble) (y : Nibble) : Statement (.shr x y) :=
  ⟨dispatchTable[15], List.getElem_mem _, by simp [dispatchTable, tableLow, tableAlu, tableHigh, tableMisc, TableEntry.matches, encode]; decide,
    by simp [dispatchTable, tableLow, tableAlu, tableHigh, tableMisc, encode]⟩

theorem subnReg (x : Nibble) (y : Nibble) : Statement (.subnReg x y) :=
  ⟨dispatchTable[16], List.getElem_mem _, by simp [dispatchTable, tableLow, tableAlu, tableHigh, tableMisc, TableEntry.matches, encode]; decide,
    by simp [dispatchTable, tableLow, tableAlu, tableHigh, tableMisc, encode]⟩

theorem shl (x : Nibble) (y : Nibble) : Statement (.shl x y) :=
  ⟨dispatchTable[17], List.getElem_mem _, by simp [dispatchTable, tableLow, tableAlu, tableHigh, tableMisc, TableEntry.matches, encode]; decide,
    by simp [dispatchTable, tableLow, tableAlu, tableHigh, tableMisc, encode]⟩

theorem sneReg (x : Nibble) (y : Nibble) (n : Nibble) : Statement (.sneReg x y n) :=
  ⟨dispatchTable[18], List.getElem_mem _, by simp [dispatchTable, tableLow, tableAlu, tableHigh, tableMisc, TableEntry.matches, encode]; decide,
    by simp [dispatchTable, tableLow, tableAlu, tableHigh, tableMisc, encode]⟩

theorem ldI (nnn : Imm12) : Statement (.ldI nnn) :=
  ⟨dispatchTable[19], List.getElem_mem _, by simp [dispatchTable, tableLow, tableAlu, tableHigh, tableMisc, TableEntry.matches, encode]; decide,
    by simp [dispatchTable, tableLow, tableAlu, tableHigh, tableMisc, encode]⟩

theorem jpV0 (nnn : Imm12) : Statement (.jpV0 nnn) :=
  ⟨dispatchTable[20], List.getElem_mem _, by simp [dispatchTable, tableLow, tableAlu, tableHigh, tableMisc, TableEntry.matches, encode]; decide,
    by simp [dispatchTable, tableLow, tableAlu, tableHigh, tableMisc, encode]⟩

theorem rnd (x : Nibble) (kk : Byte) : Statement (.rnd x kk) :=
  ⟨dispatchTable[21], List.getElem_mem _, by simp [dispatchTable, tableLow, tableAlu, tableHigh, tableMisc, TableEntry.matches, encode]; decide,
    by simp [dispatchTable, tableLow, tableAlu, tableHigh, tableMisc, encode]⟩

theorem drw (x : Nibble) (y : Nibble) (n : Nibble) : Statement (.drw x y n) :=
  ⟨dispatchTable[22], List.getElem_mem _, by simp [dispatchTable, tableLow, tableAlu, tableHigh, tableMisc, TableEntry.matches, encode]; decide,
    by simp [dispatchTable, tableLow, tableAlu, tableHigh, tableMisc, encode]⟩

theorem skp (x : Nibble) : Statement (.skp x) :=
  ⟨dispatchTable[23], List.getElem_mem _, by simp [dispatchTable, tableLow, tableAlu, tableHigh, tableMisc, TableEntry.matches, encode]; decide,
    by simp [dispatchTable, tableLow, tableAlu, tableHigh, tableMisc, encode]⟩

theorem sknp (x : Nibble) : Statement (.sknp x) :=
  ⟨dispatchTable[24], List.getElem_mem _, by simp [dispatchTable, tableLow, tableAlu, tableHigh, tableMisc, TableEntry.matches, encode]; decide,
    by simp [dispatchTable, tableLow, tableAlu, tableHigh, tableMisc, encode]⟩

theorem ldVxDt (x : Nibble) : Statement (.ldVxDt x) :=
  ⟨dispatchTable[25], List.getElem_mem _, by simp [dispatchTable, tableLow, tableAlu, tableHigh, tableMisc, TableEntry.matches, encode]; decide,
    by simp [dispatchTable, tableLow, tableAlu, tableHigh, tableMisc, encode]⟩

theorem ldVxK (x : Nibble) : Statement (.ldVxK x) :=
  ⟨dispatchTable[26], List.getElem_mem _, by simp [dispatchTable, tableLow, tableAlu, tableHigh, tableMisc, TableEntry.matches, encode]; decide,
    by simp [dispatchTable, tableLow, tableAlu, tableHigh, tableMisc, encode]⟩

theorem ldDtVx (x : Nibble) : Statement (.ldDtVx x) :=
  ⟨dispatchTable[27], List.getElem_mem _, by simp [dispatchTable, tableLow, tableAlu, tableHigh, tableMisc, TableEntry.matches, encode]; decide,
    by simp [dispatchTable, tableLow, tableAlu, tableHigh, tableMisc, encode]⟩

theorem ldStVx (x : Nibble) : Statement (.ldStVx x) :=
  ⟨dispatchTable[28], List.getElem_mem _, by simp [dispatchTable, tableLow, tableAlu, tableHigh, tableMisc, TableEntry.matches, encode]; decide,
    by simp [dispatchTable, tableLow, tableAlu, tableHigh, tableMisc, encode]⟩

theorem addIVx (x : Nibble) : Statement (.addIVx x) :=
  ⟨dispatchTable[29], List.getElem_mem _, by simp [dispatchTable, tableLow, tableAlu, tableHigh, tableMisc, TableEntry.matches, encode]; decide,
    by simp [dispatchTable, tableLow, tableAlu, tableHigh, tableMisc, encode]⟩

theorem ldFVx (x : Nibble) : Statement (.ldFVx x) :=
  ⟨dispatchTable[30], List.getElem_mem _, by simp [dispatchTable, tableLow, tableAlu, tableHigh, tableMisc, TableEntry.matches, encode]; decide,
    by simp [dispatchTable, tableLow, tableAlu, tableHigh, tableMisc, encode]⟩

theorem ldBVx (x : Nibble) : Statement (.ldBVx x) :=
  ⟨dispatchTable[31], List.getElem_mem _, by simp [dispatchTable, tableLow, tableAlu, tableHigh, tableMisc, TableEntry.matches, encode]; decide,
    by simp [dispatchTable, tableLow, tableAlu, tableHigh, tableMisc, encode]⟩

theorem ldMemVx (x : Nibble) : Statement (.ldMemVx x) :=
  ⟨dispatchTable[32], List.getElem_mem _, by simp [dispatchTable, tableLow, tableAlu, tableHigh, tableMisc, TableEntry.matches, encode]; decide,
    by simp [dispatchTable, tableLow, tableAlu, tableHigh, tableMisc, encode]⟩

theorem ldVxMem (x : Nibble) : Statement (.ldVxMem x) :=
  ⟨dispatchTable[33], List.getElem_mem _, by simp [dispatchTable, tableLow, tableAlu, tableHigh, tableMisc, TableEntry.matches, encode]; decide,
    by simp [dispatchTable, tableLow, tableAlu, tableHigh, tableMisc, encode]⟩

end Sys2Proof.Laws.EncodingInTable
end

