-- ==== Sys2Proof/Laws/Safety.lean ====
section
/-! SUPPORT. The claims' terms against the machine's own operations. -/

namespace Sys2Proof.Machine

/-- A core ready to fetch passes both fetch checks. -/
theorem State.ReadyToFetch.fetchCheck_eq {s : State} (h : s.ReadyToFetch) : fetchCheck oddFetch s.pc = none :=
  fetchCheck_eq_none.mpr ⟨h.2.2.1, fun _ => h.2.2.2⟩

/-- A step of a core ready to fetch runs its next word. -/
theorem State.ReadyToFetch.step_eq {s : State} (h : s.ReadyToFetch) : step s = runWord s s.nextWord := by
  rw [step_running h.1 h.2.1, cycle, h.fetchCheck_eq]
  rfl

/-- The closed form of a sprite's set bits is the one the blit is described by. -/
theorem State.spriteBit_iff (s : State) (x y n : Nibble) (c : Fin 64) (r : Fin 32) :
    s.SpriteBit x y n c r ↔ SpriteHits (s.readV x).toNat (s.readV y).toNat 0 (s.sprite n) c r := by
  unfold State.SpriteBit SpriteHits RowHits State.sprite
  constructor
  · rintro ⟨i, j, hi, hj, hbit, hc, hr⟩
    exact ⟨i, by simpa using hi, Fin.ext (by simp [spriteRow, hr]), j, hj, by simpa [State.readMem] using hbit,
      Fin.ext (by simp [spriteColumn, hc])⟩
  · rintro ⟨i, hi, rfl, j, hj, hbit, rfl⟩
    exact ⟨i, j, by simpa using hi, hj, by simpa [State.readMem] using hbit, by simp [spriteColumn], by simp [spriteRow]⟩

end Sys2Proof.Machine
end

