-- ==== Sys2Proof/WellFormed.lean ====
section
/-! DEFINITION. Well-formedness of an instruction term (log 23).
The bounds of every operand are in the fields' types, so what is left to check is the assembler's form of a term:
30_encoding.md R85 writes no operand for the bits no handler reads, and a well-formed term has them zero.
This is no condition for running: the decoder produces, and the machine runs, every term (R81). -/

namespace Sys2Proof

/-- The term is one the notation of R85 can write: every field that no handler reads is zero. -/
def Instr.wellFormed : Instr → Bool
  | .cls x | .ret x => x == 0
  | .seReg _ _ n | .sneReg _ _ n => n == 0
  | .shr _ y | .shl _ y => y == 0
  | .jp _ | .call _ | .seImm _ _ | .sneImm _ _ | .ldImm _ _ | .addImm _ _
  | .ldReg _ _ | .orReg _ _ | .andReg _ _ | .xorReg _ _ | .addReg _ _ | .subReg _ _ | .subnReg _ _
  | .ldI _ | .jpV0 _ | .rnd _ _ | .drw _ _ _ | .skp _ | .sknp _ | .ldVxDt _ | .ldVxK _
  | .ldDtVx _ | .ldStVx _ | .addIVx _ | .ldFVx _ | .ldBVx _ | .ldMemVx _ | .ldVxMem _ => true

end Sys2Proof
end

