-- ==== Sys2Proof/Tests/Slice0.lean ====
section
/-! SUPPORT. The model's own tests. Expected results come from the spec: `V<n>` and `S<n>` are the vectors of
95_test_vectors.md, R<n> the rules. Each runs one step, of an instruction placed where the fetch reads. -/

namespace Sys2Proof.Tests

open Sys2Proof.Machine

/-! ## Helpers -/

/-- The reset state with one host turn fixed: key A held, the random byte 0xB7, no edge. -/
def start : State := { State.reset with hostScript := [⟨0x0400, 0xB7, none⟩] }

/-- `start` with the given registers. -/
def regs (l : List (Nibble × Byte)) : State := l.foldl (fun s p => s.writeV p.1 p.2) start

/-- A state with bytes stored from an address upward. -/
def put (s : State) (a : Nat) (bs : List Byte) : State := s.setMem (s.mem.store a bs)

/-- The state after one step of the word placed at PC. -/
def after (s : State) (w : Nat) : Option State :=
  match step (s.withFetchWord 16 w) with
  | .next t => some t
  | _ => none

/-- What a test looks at after one step. -/
def see {α : Type} (s : State) (w : Nat) (look : State → α) : Option α := (after s w).map look

/-- V[r] and VF after one step. -/
def seeFlag (s : State) (w : Nat) (r : Nibble) : Option (Byte × Byte) := see s w fun t => (t.readV r, t.readV 0xF)

/-- The fault kind, the record and PC after one step. -/
def seeFault (s : State) (w : Nat) : Option (Option FaultRecord × Word) := see s w fun t => (t.halt, t.pc)

/-! ## Decoding: the word of every constructor, written out from the formats of R71 and the entries of R78 -/

theorem test_decode_control_flow :
    [0x00E0, 0x0AE0, 0x00EE, 0x03EE, 0x1ABC, 0x2ABC, 0xBFFF].map (decodeTableWord 16) =
      [some (.cls 0x0), some (.cls 0xA), some (.ret 0x0), some (.ret 0x3), some (.jp 0xABC), some (.call 0xABC),
       some (.jpV0 0xFFF)] := by decide

theorem test_decode_skips :
    [0x3310, 0x4F01, 0x5AB7, 0x9120, 0xE29E, 0xE2A1].map (decodeTableWord 16) =
      [some (.seImm 0x3 0x10), some (.sneImm 0xF 0x01), some (.seReg 0xA 0xB 0x7), some (.sneReg 0x1 0x2 0x0),
       some (.skp 0x2), some (.sknp 0x2)] := by decide

theorem test_decode_moves :
    [0x6A2A, 0x71FF, 0xA300, 0xC10F, 0xD123].map (decodeTableWord 16) =
      [some (.ldImm 0xA 0x2A), some (.addImm 0x1 0xFF), some (.ldI 0x300), some (.rnd 0x1 0x0F),
       some (.drw 0x1 0x2 0x3)] := by decide

theorem test_decode_alu :
    [0x8120, 0x8121, 0x8122, 0x8123, 0x8124, 0x8125, 0x8126, 0x8127, 0x812E].map (decodeTableWord 16) =
      [some (.ldReg 0x1 0x2), some (.orReg 0x1 0x2), some (.andReg 0x1 0x2), some (.xorReg 0x1 0x2),
       some (.addReg 0x1 0x2), some (.subReg 0x1 0x2), some (.shr 0x1 0x2), some (.subnReg 0x1 0x2),
       some (.shl 0x1 0x2)] := by decide

theorem test_decode_misc :
    [0xF107, 0xF20A, 0xF315, 0xF418, 0xF51E, 0xF629, 0xF733, 0xF855, 0xF965].map (decodeTableWord 16) =
      [some (.ldVxDt 0x1), some (.ldVxK 0x2), some (.ldDtVx 0x3), some (.ldStVx 0x4), some (.addIVx 0x5),
       some (.ldFVx 0x6), some (.ldBVx 0x7), some (.ldMemVx 0x8), some (.ldVxMem 0x9)] := by decide

/-- Illegal words at the boundaries of R83's list (V6, V8, V9, V10, S9). -/
theorem test_decode_illegal :
    [0x0000, 0x0120, 0x00E1, 0x8008, 0x800D, 0x800F, 0xE09F, 0xE0A2, 0xF000, 0xF1FF].map (decodeTableWord 16) =
      List.replicate 10 none := by decide

/-- Big-endian: the first byte is the high one (20_memory.md R52); a lone byte is no instruction. -/
theorem test_decode_bytes :
    decodeBytes [0x1A, 0xBC, 0x77] = .ok (.jp 0xABC, [0x77]) ∧ decodeBytes [0x1A] = .error .truncated := by decide

theorem test_encode_words :
    [Instr.drw 0x1 0x2 0x3, .jp 0xABC, .shl 0x8 0x2, .ldVxMem 0xF, .cls 0xA].map encode =
      [0xD123, 0x1ABC, 0x882E, 0xFF65, 0x0AE0] := by decide

/-! ## Well-formedness: the check refuses a term whose unread bits are set -/

theorem test_illFormed_cls : (Instr.cls 0x1).wellFormed = false := by decide
theorem test_illFormed_ret : (Instr.ret 0x1).wellFormed = false := by decide
theorem test_illFormed_seReg : (Instr.seReg 0x1 0x2 0x1).wellFormed = false := by decide
theorem test_illFormed_sneReg : (Instr.sneReg 0x1 0x2 0x1).wellFormed = false := by decide
theorem test_illFormed_shr : (Instr.shr 0x1 0x1).wellFormed = false := by decide
theorem test_illFormed_shl : (Instr.shl 0x1 0x1).wellFormed = false := by decide

theorem test_wellFormed :
    ([Instr.cls 0x0, .ret 0x0, .seReg 0x1 0x2 0x0, .sneReg 0x1 0x2 0x0, .shr 0x1 0x0, .shl 0x1 0x0,
      .drw 0xF 0xF 0xF].all Instr.wellFormed) = true := by decide

/-! ## Fetch and the cycle -/

/-- V1: the last fetch address; the jump it holds. -/
theorem test_fetch_last : see { start with pc := 0x0FFE } 0x1200 (·.pc) = some 0x0200 := by decide

/-- V2. -/
theorem test_fetch_above : (match step { start with pc := 0x1000 } with | .next t => some (t.halt, t.pc, t.dt) | _ => none) =
    some (some ⟨.outOfRangeAddress .fetch 0x1000, some 0x1000, none⟩, 0x1000, 0x00) := by decide

/-- V3. -/
theorem test_fetch_odd : (match step { start with pc := 0x0203 } with | .next t => some (t.halt, t.pc) | _ => none) =
    some (some ⟨.misalignedFetch, some 0x0203, none⟩, 0x0203) := by decide

/-- S9. -/
theorem test_unrecognized : seeFault start 0x0120 =
    some (some ⟨.unrecognizedInstruction, some 0x0200, some 0x0120⟩, 0x0200) := by decide

/-- V12. -/
theorem test_tick : see { start with dt := 0x03 } 0x6A2A (fun t => (t.dt, t.st, t.pc)) = some (0x02, 0x00, 0x0202) := by decide

/-- 40_step_engine.md R101: no step after a fault. -/
theorem test_halted_stops :
    (match step (State.reset.enterFault ⟨.stackOverflow, none, none⟩) with
      | .fault (.halted f) => f.kind | _ => .misalignedFetch) = .stackOverflow := by decide

/-! ## Control flow -/

/-- S2. -/
theorem test_jp : see start 0x1ABC (·.pc) = some 0x0ABC := by decide

/-- V23. -/
theorem test_call : see { start with pc := 0x0204, sp := 15 } 0x2210 (fun t => (t.stack[15], t.sp, t.pc)) =
    some (0x0206, 16, 0x0210) := by decide

/-- V24. -/
theorem test_call_overflow : see { start with pc := 0x0204, sp := 16 } 0x2210 (fun t => (t.halt, t.pc, t.sp)) =
    some (some ⟨.stackOverflow, some 0x0204, some 0x2210⟩, 0x0204, 16) := by decide

/-- V5. -/
theorem test_ret : see { start with sp := 1, stack := start.stack.set 0 0x0300 } 0x03EE (fun t => (t.pc, t.sp)) =
    some (0x0300, 0) := by decide

/-- V26. -/
theorem test_ret_underflow : seeFault { start with pc := 0x0210 } 0x00EE =
    some (some ⟨.stackUnderflow, some 0x0210, some 0x00EE⟩, 0x0210) := by decide

/-- V28: the target is not masked. -/
theorem test_jpV0 : see (regs [(0x0, 0xFF)]) 0xBFFF (·.pc) = some 0x10FE := by decide

/-- V30. -/
theorem test_seImm : (see (regs [(0x3, 0x10)]) 0x3310 (·.pc), see (regs [(0x3, 0x10)]) 0x3311 (·.pc)) =
    (some 0x0204, some 0x0202) := by decide

/-- V31. -/
theorem test_sneImm : (see (regs [(0x3, 0x10)]) 0x4310 (·.pc), see (regs [(0x3, 0x10)]) 0x4311 (·.pc)) =
    (some 0x0202, some 0x0204) := by decide

/-- V34 and V33. -/
theorem test_seReg : (see (regs [(0x1, 0x07), (0x2, 0x08)]) 0x5120 (·.pc), see start 0x5110 (·.pc)) =
    (some 0x0202, some 0x0204) := by decide

/-- V34 and V33. -/
theorem test_sneReg : (see (regs [(0x1, 0x07), (0x2, 0x08)]) 0x9120 (·.pc), see start 0x9110 (·.pc)) =
    (some 0x0204, some 0x0202) := by decide

/-! ## Moves and ALU -/

/-- V41. -/
theorem test_ldImm : seeFlag start 0x6F07 0xF = some (0x07, 0x07) := by decide

/-- V42: a wrap without a flag. -/
theorem test_addImm : seeFlag (regs [(0x1, 0xFF), (0xF, 0x55)]) 0x7101 0x1 = some (0x00, 0x55) := by decide

/-- V45. -/
theorem test_ldReg : seeFlag (regs [(0x2, 0x33), (0xF, 0x01)]) 0x8120 0x1 = some (0x33, 0x01) := by decide

/-- V46. -/
theorem test_orReg : seeFlag (regs [(0x1, 0xF0), (0x2, 0x0F), (0xF, 0x09)]) 0x8121 0x1 = some (0xFF, 0x09) := by decide

/-- V47. -/
theorem test_andReg : seeFlag (regs [(0x1, 0xF0), (0x2, 0x3C), (0xF, 0x09)]) 0x8122 0x1 = some (0x30, 0x09) := by decide

/-- V48. -/
theorem test_xorReg : seeFlag (regs [(0x1, 0xFF), (0x2, 0x0F), (0xF, 0x09)]) 0x8123 0x1 = some (0xF0, 0x09) := by decide

/-- S4. -/
theorem test_addReg_carry : seeFlag (regs [(0x1, 0xFF), (0x2, 0x01)]) 0x8124 0x1 = some (0x00, 0x01) := by decide

/-- V52: the flag wins when x is F. -/
theorem test_addReg_flag_wins : seeFlag (regs [(0xF, 0x10), (0x1, 0xF5)]) 0x8F14 0xF = some (0x01, 0x01) := by decide

/-- S5. -/
theorem test_subReg_borrow : seeFlag (regs [(0x1, 0x01), (0x2, 0x02), (0xF, 0x09)]) 0x8125 0x1 = some (0xFF, 0x00) := by decide

/-- V55. -/
theorem test_subReg_equal : seeFlag (regs [(0x1, 0x07), (0x2, 0x07)]) 0x8125 0x1 = some (0x00, 0x01) := by decide

/-- S6: V[y] is not read. -/
theorem test_shr : seeFlag (regs [(0x1, 0x81), (0x2, 0x10)]) 0x8126 0x1 = some (0x40, 0x01) := by decide

/-- V63. -/
theorem test_subnReg : seeFlag (regs [(0x1, 0x02), (0x2, 0x05)]) 0x8127 0x1 = some (0x03, 0x01) := by decide

/-- V64. -/
theorem test_subnReg_borrow : seeFlag (regs [(0x1, 0x05), (0x2, 0x02), (0xF, 0x09)]) 0x8127 0x1 = some (0xFD, 0x00) := by decide

/-- V66. -/
theorem test_shl : seeFlag (regs [(0x1, 0x81)]) 0x810E 0x1 = some (0x02, 0x01) := by decide

/-- V70: V[y] is not read. -/
theorem test_shl_y : seeFlag (regs [(0x1, 0x40), (0x2, 0xFF), (0xF, 0x09)]) 0x812E 0x1 = some (0x80, 0x00) := by decide

/-! ## Index and random -/

/-- V80. -/
theorem test_ldI : see start 0xAFFF (·.i) = some 0x0FFF := by decide

/-- V81. -/
theorem test_addIVx_range : see { regs [(0x1, 0x01)] with i := 0x0FFF } 0xF11E (fun t => (t.i, t.readV 0xF)) =
    some (0x1000, 0x01) := by decide

/-- V85: V[x] is read before VF is written. -/
theorem test_addIVx_f : see { regs [(0xF, 0x10)] with i := 0x0100 } 0xFF1E (fun t => (t.i, t.readV 0xF)) =
    some (0x0110, 0x00) := by decide

/-- V87: no mask, no fault. -/
theorem test_ldFVx : see (regs [(0x0, 0xFF)]) 0xF029 (·.i) = some 0x04FB := by decide

/-- V88. -/
theorem test_rnd : see start 0xC10F (·.readV 0x1) = some 0x07 := by decide

/-! ## Display -/

/-- V90. -/
theorem test_cls : see { regs [(0xF, 0x01)] with disp := Display.flip State.reset.disp 63 31 } 0x00E0
    (fun t => (t.disp.cell 63 31, t.readV 0xF, t.displayChanged)) = some (false, 0x01, true) := by decide

/-- V95: the origin is taken modulo 64 and 32. -/
theorem test_drw_wrap : see { put (regs [(0x0, 0xC8), (0x1, 0x45)]) 0x300 [0x80] with i := 0x0300 } 0xD011
    (fun t => (t.disp.cell 8 5, t.readV 0xF, t.displayChanged)) = some (true, 0x00, true) := by decide

/-- V101: a collision; the most significant bit is leftmost. -/
theorem test_drw_collision :
    see { put start 0x300 [0xF0] with i := 0x0300, disp := Display.flip (Display.flip State.reset.disp 0 0) 1 0 } 0xD011
      (fun t => (t.disp.cell 0 0, t.disp.cell 1 0, t.disp.cell 2 0, t.disp.cell 3 0, t.disp.cell 4 0, t.readV 0xF)) =
      some (false, false, true, true, false, 0x01) := by decide

/-! ## Input and timers -/

/-- V110 and V114. -/
theorem test_skp : (see { regs [(0x2, 0x0A)] with pc := 0x0208 } 0xE29E (·.pc), seeFault (regs [(0x2, 0x10)]) 0xE29E) =
    (some 0x020C, some (some ⟨.keyIndexOutOfRange 0x10, some 0x0200, some 0xE29E⟩, 0x0200)) := by decide

/-- V112 and V113, with the key up. -/
theorem test_sknp : (see { regs [(0x2, 0x0A)] with pc := 0x0208 } 0xE2A1 (·.pc),
    see { regs [(0x2, 0x0B)] with pc := 0x0208 } 0xE2A1 (·.pc)) = (some 0x020A, some 0x020C) := by decide

/-- V115. -/
theorem test_ldVxDt : see { start with dt := 0x04 } 0xF107 (fun t => (t.readV 0x1, t.dt)) = some (0x04, 0x03) := by decide

/-- V117. -/
theorem test_ldDtVx : see (regs [(0x0, 0x05)]) 0xF015 (·.dt) = some 0x04 := by decide

/-- V119. -/
theorem test_ldStVx_one : see (regs [(0x0, 0x01)]) 0xF018 (fun t => (t.st, t.tone)) = some (0x00, false) := by decide

/-- V120. -/
theorem test_ldStVx_three : see (regs [(0x0, 0x03)]) 0xF018 (fun t => (t.st, t.tone)) = some (0x02, true) := by decide

/-- V121. -/
theorem test_ldVxK : see { start with pc := 0x0206, dt := 0x05, st := 0x02 } 0xF20A
    (fun t => (t.pc, t.wait, t.dt, t.st, t.readV 0x2)) = some (0x0208, .awaitingKey 0x2, 0x04, 0x01, 0x00) := by decide

/-- V124: the edge completes the wait, without a tick. -/
theorem test_key_edge :
    (match step { regs [(0xF, 0x01)] with wait := .awaitingKey 0xF, dt := 0x04, hostScript := [⟨0, 0, some 0xC⟩] } with
      | .next t => some (t.readV 0xF, t.wait, t.dt, t.pc) | _ => none) = some (0x0C, .running, 0x04, 0x0200) := by decide

/-- V123. -/
theorem test_key_edge_running : start.keyEdge 0x3 = start := by decide

/-! ## Memory transfer -/

/-- S7. -/
theorem test_ldBVx : see { regs [(0x1, 0xEA)] with i := 0x0300 } 0xF133
    (fun t => (t.readMem 0x300, t.readMem 0x301, t.readMem 0x302, t.i)) = some (2, 3, 4, 0x0300) := by decide

/-- V134: every address is checked before the first byte is written. -/
theorem test_ldBVx_range : see { regs [(0x1, 0xFF)] with i := 0x0FFE } 0xF133 (fun t => (t.halt, t.readMem 0xFFE)) =
    some (some ⟨.outOfRangeAddress .write 0x1000, some 0x0200, some 0xF133⟩, 0x00) := by decide

/-- V137. -/
theorem test_ldMemVx : see { regs [(0x0, 1), (0x1, 2), (0x2, 3)] with i := 0x0300 } 0xF155
    (fun t => (t.readMem 0x300, t.readMem 0x301, t.readMem 0x302, t.i)) = some (1, 2, 0, 0x0300) := by decide

/-- 20_memory.md R58: the last font address. -/
theorem test_ldMemVx_font : seeFault { start with i := 0x004F } 0xF055 =
    some (some ⟨.fontRegionWrite 0x4F, some 0x0200, some 0xF055⟩, 0x0200) := by decide

/-- V140. -/
theorem test_ldVxMem : see { put (regs [(0x3, 9)]) 0x300 [2, 3, 4] with i := 0x0300 } 0xF265
    (fun t => (t.readV 0x0, t.readV 0x1, t.readV 0x2, t.readV 0x3, t.i)) = some (2, 3, 4, 9, 0x0300) := by decide

/-- V141: font reads are legal. -/
theorem test_ldVxMem_font : see start 0xF465 (fun t => (t.readV 0x0, t.readV 0x1, t.readV 0x4)) =
    some (0xF0, 0x90, 0xF0) := by decide

/-- A store removes the listing of a byte written back to its reset contents (log 15). -/
theorem test_memory_canonical :
    (Memory.write (Memory.write [] 0x300 0x77) 0x300 0x00 = []) ∧
      (Memory.write (Memory.write [] 0x302 0x02) 0x300 0x01 = [(0x300, 0x01), (0x302, 0x02)]) := by decide

/-! ## Start-up and the host's side -/

/-- V150: an empty image. -/
theorem test_boot_empty : (match step { boot (some []) with hostScript := start.hostScript } with
      | .next t => some t.halt | _ => none) =
    some (some ⟨.unrecognizedInstruction, some 0x0200, some 0x0000⟩) := by decide

/-- R109: a cycle that faults right after a DXYN presents nothing, although the strobe keeps its value. -/
theorem test_fault_presents_nothing :
    see { start with displayChanged := true } 0x00EE (fun t => (t.displayChanged, (start.presented t).isSome)) =
      some (true, false) := by decide

/-- R108, R116: a completed DXYN presents the grid. -/
theorem test_draw_presents : see start 0xD015 (fun t => (start.presented t).map fun d => d.cell 0 0) = some (some true) := by
  decide

/-- R113: the physical mapping. -/
theorem test_physical_keys : ['1', 'Q', 'A', 'V', '5'].map logicalKey =
    [some 0x0, some 0x4, some 0x8, some 0xF, none] := by decide

/-- 20_memory.md R58 and 40_step_engine.md R103 under the other settings of the parameters (V135, V3). -/
theorem test_other_parameters : writeCheck .write 0x4E = none ∧ fetchCheck .fetch 0x0203 = none ∧
    notBorrowFlag false 0x07 0x07 = 0x00 := by decide

/-! ## Witnesses: concrete states and operands that meet the hypotheses of each statement, one for each clause -/

/-- `start` about to fetch the word `w`. -/
def fetching (w : Nat) : State := start.withFetchWord 16 w

theorem fetching_ready (w : Nat) : (fetching w).ReadyToFetch :=
  ⟨rfl, rfl, (by decide : (0x0200 : Word).toNat ≤ 0xFFE), (by decide : (0x0200 : Word).toNat % 2 = 0)⟩

theorem test_witness_EncodeOfDecodeIsTheWord : decode 0x812E = .ok (.shl 0x1 0x2) := by decide

theorem test_witness_TableMatchIsMaskAndMatch : ∃ e ∈ dispatchTable, e.matches 0x0AE0 = true := by decide

theorem test_witness_AtMostOneEntryMatches :
    dispatchTable[0].matches 0x00E0 = true ∧ dispatchTable[33].matches 0xFF65 = true := by decide

theorem test_witness_StepRunsTheDecodedInstruction_completes : ∃ (s : State) (i : Instr) (t : State),
    s.ReadyToFetch ∧ decode s.nextWord = .ok i ∧ exec i s.entry = .next t ∧ t.halt = none :=
  ⟨fetching 0x8124, .addReg 0x1 0x2, _, fetching_ready _, by decide, rfl, rfl⟩

theorem test_witness_StepRunsTheDecodedInstruction_faults : ∃ (s : State) (i : Instr) (t : State) (f : FaultRecord),
    s.ReadyToFetch ∧ decode s.nextWord = .ok i ∧ exec i s.entry = .next t ∧ t.halt = some f :=
  ⟨fetching 0x00EE, .ret 0x0, _, _, fetching_ready _, by decide, rfl, rfl⟩

/-- The clause on PC: a core that has faulted and waits, with PC at the last fetch address. -/
theorem test_witness_PlacedInstructionIsFetchedNext : start.mem.wf ∧ decodeTableWord 16 0xFF65 = some (.ldVxMem 0xF) ∧
    fetchCheck oddFetch ({ start.halted .stackOverflow none with wait := .awaitingKey 0x2, pc := 0x0FFE } : State).pc = none := by
  decide

theorem test_witness_FetchChecksComeFirstAndInOrder : start.halt = none ∧ start.wait = .running ∧
    0xFFE < (0x0FFF : Word).toNat ∧ 0xFFE < (0xFFFF : Word).toNat ∧
    ((0x0FFD : Word).toNat ≤ 0xFFE ∧ (0x0FFD : Word).toNat % 2 = 1) ∧ (0x0FFE : Word).toNat ≤ 0xFFE := by decide

theorem test_witness_UnrecognizedWordIsFatal : (fetching 0x0120).ReadyToFetch ∧ (∀ e ∈ dispatchTable, e.matches (fetching 0x0120).nextWord = false) ∧
    (0x00E1 : Word).toNat / 4096 = 0x0 ∧ (0x00E1 : Word).toNat % 256 ≠ 0xE0 ∧ (0x00E1 : Word).toNat % 256 ≠ 0xEE :=
  ⟨fetching_ready _, by decide, by decide, by decide, by decide⟩

theorem test_witness_OnlyAHaltedCoreStops : start.halt = none ∧
    (start.halted .misalignedFetch none).halt = some ⟨.misalignedFetch, some 0x0200, none⟩ := ⟨rfl, rfl⟩

theorem test_witness_FaultsArePrecise : ∃ s', step (fetching 0x00EE) = .next s' ∧ s'.halt ≠ none :=
  ⟨_, rfl, by decide⟩

/-- One witness for each kind a cycle can record: in each a step ends with that kind in `HALT`. -/
theorem test_witness_FaultRecordsAreExplained :
    [(start, 0x8008), ({ start with sp := 16 }, 0x2210), (start, 0x00EE), ({ start with i := 0x0FFF }, 0xD012),
     ({ start with i := 0x0FF1 }, 0xFF65), ({ start with i := 0x0FFE }, 0xF133), ({ start with i := 0x1000 }, 0xF055),
     ({ start with i := 0x004F }, 0xF133), (start, 0xF055), (regs [(0x1, 0x10)], 0xE19E), (regs [(0x1, 0xFF)], 0xE1A1)].map
      (fun c => see c.1 c.2 fun t => t.halt.map FaultRecord.kind) =
    [some (some .unrecognizedInstruction), some (some .stackOverflow), some (some .stackUnderflow),
     some (some (.outOfRangeAddress .read 0x1000)), some (some (.outOfRangeAddress .read 0x1000)),
     some (some (.outOfRangeAddress .write 0x1000)), some (some (.outOfRangeAddress .write 0x1000)),
     some (some (.fontRegionWrite 0x4F)), some (some (.fontRegionWrite 0x00)),
     some (some (.keyIndexOutOfRange 0x10)), some (some (.keyIndexOutOfRange 0xFF))] := by decide

theorem test_witness_TimersTick_completed : ∃ (i : Instr) (t s' : State), step (fetching 0x6A2A) = .next s' ∧
    (fetching 0x6A2A).wait = .running ∧ decode (fetching 0x6A2A).nextWord = .ok i ∧
    exec i (fetching 0x6A2A).entry = .next t ∧ s'.halt = none :=
  ⟨.ldImm 0xA 0x2A, _, _, rfl, rfl, by decide, rfl, rfl⟩

/-- Waiting for a key into V2, with an edge of key 7 in the host's turn, or without one. -/
def waiting (edge : Option Nibble) : State := { start with wait := .awaitingKey 0x2, hostScript := [⟨0, 0, edge⟩] }

theorem test_witness_TimersTick_waiting : ∃ s', step (waiting none) = .next s' ∧ (waiting none).wait = .awaitingKey 0x2 :=
  ⟨_, rfl, rfl⟩

theorem test_witness_OutputsOfACompletedCycle_draws : ∃ s', step (fetching 0xD015) = .next s' ∧
    decode (fetching 0xD015).nextWord = .ok (.drw 0x0 0x1 0x5) ∧ s'.halt = none ∧ (Instr.drw 0x0 0x1 0x5).Draws :=
  ⟨_, rfl, by decide, rfl, .inl ⟨_, _, _, rfl⟩⟩

theorem test_witness_OutputsOfACompletedCycle_other : ∃ s', step (fetching 0x6A2A) = .next s' ∧
    decode (fetching 0x6A2A).nextWord = .ok (.ldImm 0xA 0x2A) ∧ s'.halt = none ∧ ¬ (Instr.ldImm 0xA 0x2A).Draws :=
  ⟨_, rfl, by decide, rfl, by simp [Instr.Draws]⟩

theorem test_witness_KeysAreSampledEachCycle_skp : ∃ s', step (fetching 0xE29E) = .next s' ∧ s'.halt = none ∧
    (fetching 0xE29E).wait = .running ∧ decode (fetching 0xE29E).nextWord = .ok (.skp 0x2) :=
  ⟨_, rfl, rfl, rfl, by decide⟩

theorem test_witness_KeysAreSampledEachCycle_faults : ∃ s', step (fetching 0x00EE) = .next s' ∧ s'.halt ≠ none ∧
    (fetching 0x00EE).hostTurn.keys ≠ (fetching 0x00EE).keys := ⟨_, rfl, by decide, by decide⟩

theorem test_witness_KeysAreSampledEachCycle_sknp : ∃ s', step (fetching 0xE2A1) = .next s' ∧ s'.halt = none ∧
    (fetching 0xE2A1).wait = .running ∧ decode (fetching 0xE2A1).nextWord = .ok (.sknp 0x2) :=
  ⟨_, rfl, rfl, rfl, by decide⟩

theorem test_witness_AWaitEndsByItsEdgeAlone : (waiting (some 0x7)).WaitingFor 0x2 ∧ (waiting none).WaitingFor 0x2 ∧
    (waiting (some 0x7)).hostTurn.edge = some 0x7 ∧ (waiting none).hostTurn.edge = none :=
  ⟨⟨rfl, rfl⟩, ⟨rfl, rfl⟩, rfl, rfl⟩

theorem test_witness_EdgesWhileRunningAreDropped : ∃ t, (fetching 0x6A2A).wait = .running ∧
    step { fetching 0x6A2A with hostScript := [⟨0, 0, some 0x3⟩] } = .next t ∧ t.halt = none := ⟨_, rfl, rfl, rfl⟩

theorem test_witness_OnlyFX0AEntersTheWait : ∃ s', step (fetching 0xF20A) = .next s' ∧
    (fetching 0xF20A).wait = .running ∧ s'.wait = .awaitingKey 0x2 := ⟨_, rfl, rfl, rfl⟩

theorem test_witness_OnlyAnEdgeLeavesTheWait : ∃ s', step (waiting (some 0x7)) = .next s' ∧
    (waiting (some 0x7)).wait = .awaitingKey 0x2 ∧ s'.wait ≠ .awaitingKey 0x2 := ⟨_, rfl, rfl, by decide⟩

theorem test_witness_OnlyDrawAndClearChangeTheDisplay : ∃ s', step (fetching 0xD015) = .next s' ∧
    s'.disp ≠ (fetching 0xD015).disp := ⟨_, rfl, fun h => absurd (congrArg (fun d => Display.cell d 0 0) h) (by decide)⟩

theorem test_witness_OnlyDestinationsAndFlagsAreWritten : ∃ t u v : State,
    (exec (.addReg 0x1 0x2) (regs [(0x1, 0xFF), (0x2, 0x01)]) = .next t ∧ t.readV 0xF ≠ 0x00) ∧
    (exec (.ldImm 0xF 0x07) start = .next u ∧ u.readV 0xF ≠ 0x00) ∧
    exec (.ldVxMem 0xE) start = .next v ∧ (0xE : Nibble) ≠ 0xF ∧ v.readV 0xE ≠ start.readV 0xE :=
  ⟨_, _, _, ⟨rfl, by decide⟩, ⟨rfl, by decide⟩, rfl, by decide, by decide⟩

theorem test_witness_OnlyStoresChangeMemory : ∃ t u : State, start.mem.wf ∧
    (exec (.ldBVx 0x1) { regs [(0x1, 0xEA)] with i := 0x0FFD } = .next t ∧ t.readMem 0xFFF ≠ 0x00) ∧
    exec (.ldMemVx 0xF) { regs [(0xF, 0x77)] with i := 0x0FF0 } = .next u ∧ u.readMem 0xFFF ≠ 0x00 :=
  ⟨_, _, by decide, ⟨rfl, by decide⟩, rfl, by decide⟩

theorem test_witness_FontTableIsNeverWritten : ∃ s', (fetching 0xF055).mem.wf ∧
    step { fetching 0xF055 with i := 0x0050 } = .next s' ∧ 0x04F ≤ 0x04F ∧ 0xFFF ≤ 0xFFF :=
  ⟨_, by decide, rfl, le_refl _, le_refl _⟩

theorem test_witness_SpecialRegistersHaveTheirOwnWriters : ∃ a b c d e : State,
    (exec (.ldI 0x300) start = .next a ∧ a.i ≠ start.i) ∧ (exec (.ldDtVx 0x1) (regs [(0x1, 5)]) = .next b ∧ b.dt ≠ start.dt) ∧
    (exec (.ldStVx 0x1) (regs [(0x1, 5)]) = .next c ∧ c.st ≠ start.st) ∧
    (exec (.call 0x300) start = .next d ∧ d.sp ≠ start.sp ∧ d.stack ≠ start.stack) ∧
    exec (.ldVxK 0x1) start = .next e ∧ e.wait ≠ start.wait :=
  ⟨_, _, _, _, _, ⟨rfl, by decide⟩, ⟨rfl, by decide⟩, ⟨rfl, by decide⟩, ⟨rfl, by decide, by decide⟩, rfl, by decide⟩

theorem test_witness_StepKeepsTheInvariant : ∃ s', (fetching 0x2300).Inv ∧ step (fetching 0x2300) = .next s' :=
  ⟨_, ⟨by decide, rfl, fun _ _ h => absurd h (Nat.not_lt_zero _), fun _ h => nomatch h⟩, rfl⟩

/-- V21. -/
theorem test_witness_Spinning : (fetching 0x1200).SpinningAt 0x0200 :=
  ⟨rfl, rfl, rfl, by decide, by decide, by decide⟩

theorem test_witness_Spinning_last : (({ start with pc := 0x0FFE } : State).withFetchWord 16 0x1FFE).SpinningAt 0x0FFE :=
  ⟨rfl, rfl, by decide, by decide, by decide, by decide⟩

/-- V151: the last byte that is loaded of an image that is too long, and the addresses either side of a short one. -/
theorem test_witness_BootLoadsTheImage : 3583 < (List.replicate 3600 (0x77 : Byte)).length ∧ 3583 < 3584 ∧
    (0x1FF < 0x200 ∨ 0x200 + min [0x12, (0x00 : Byte)].length 3584 ≤ 0x1FF) ∧
    (0x202 < 0x200 ∨ 0x200 + min [0x12, (0x00 : Byte)].length 3584 ≤ 0x202) :=
  ⟨by rw [List.length_replicate]; omega, by omega, .inl (by omega), .inr (by decide)⟩

theorem test_witness_ImmediateSkips : 0xFFE ≤ (0x0FFE : Word).toNat ∧ (0x1000 : Word).toNat ≤ 0x1000 := by decide

theorem test_witness_JumpSetsPC : (0x001 : Imm12).toNat % 2 = 1 ∧ (0xFFF : Imm12).toNat % 2 = 1 := by decide

theorem test_witness_IndexedJumpAddsV0 : ∃ t u, (exec (.jpV0 0xF00) (regs [(0x0, 0xFF)]) = .next t ∧ 0xFFE < t.pc.toNat) ∧
    exec (.jpV0 0xFFF) (regs [(0x0, 0xFF)]) = .next u ∧ 0xFFE < u.pc.toNat := ⟨_, _, ⟨rfl, by decide⟩, rfl, by decide⟩

theorem test_witness_CallPushesTheReturnAddress : start.sp.val < 16 ∧ ({ start with sp := 15 } : State).sp.val < 16 := by decide

theorem test_witness_ReturnPopsIntoPC :
    ({ start with sp := 1 } : State).sp.val = 0 + 1 ∧ ({ start with sp := 16 } : State).sp.val = 15 + 1 := by decide

/-- A later state that differs from the one the call left in PC, V1, the timers, the host's side and an unused slot. -/
theorem test_witness_CallThenReturn : ∃ t later : State, exec (.call 0xABC) { start with sp := 14 } = .next t ∧
    later ≠ t ∧ later.sp = t.sp ∧ ∀ (j : Nat) (h : j < 16), j < t.sp.val → later.stack[j] = t.stack[j] :=
  ⟨_, { start.writeV 0x1 0x09 with
        sp := 15, stack := (start.stack.set 14 0x0200).set 15 0x0300, pc := 0x0ABC, dt := 0x05, hostClock := 3 },
    rfl, fun h => absurd (congrArg State.dt h) (by decide), rfl, by decide⟩

theorem test_witness_CallThenReturn_last : ∃ t, exec (.call 0xABC) { start with sp := 15 } = .next t ∧ t.sp.val = 16 :=
  ⟨_, rfl, rfl⟩

theorem test_witness_StackFaultsAreFatal_call : ({ fetching 0x2300 with sp := 16 } : State).ReadyToFetch ∧
    decode ({ fetching 0x2300 with sp := 16 } : State).nextWord = .ok (.call 0x300) ∧
    ({ fetching 0x2300 with sp := 16 } : State).sp.val = 16 := ⟨fetching_ready 0x2300, by decide, by decide⟩

theorem test_witness_StackFaultsAreFatal_ret : (fetching 0x00EE).ReadyToFetch ∧
    decode (fetching 0x00EE).nextWord = .ok (.ret 0x0) ∧ (fetching 0x00EE).sp.val = 0 :=
  ⟨fetching_ready _, by decide, by decide⟩

theorem test_witness_DrawXorsTheSprite : (∀ k < (0xF : Nibble).toNat, ({ start with i := 0x0FF1 } : State).dataBase + k ≤ 0xFFF) ∧
    ∀ k < (0x0 : Nibble).toNat, ({ start with i := 0xFFFF } : State).dataBase + k ≤ 0xFFF := by decide

/-- The collision clause: glyph 0 over a set cell; the other: glyph 0 on a clear display. -/
theorem test_witness_DrawXorsTheSprite_collision :
    ({ start with disp := Display.flip start.disp 3 4 } : State).SpriteBit 0x0 0x1 0x5 3 4 ∧
      Display.cell (Display.flip start.disp 3 4) 3 4 = true :=
  ⟨⟨4, 3, by decide, by decide, by decide, by decide, by decide⟩, by decide⟩

theorem test_witness_DrawXorsTheSprite_clear : ¬ ∃ c r, start.SpriteBit 0x0 0x1 0x5 c r ∧ start.disp.cell c r = true := by
  rintro ⟨c, r, -, h⟩; exact absurd h (by revert c r; decide)

/-- The second draw runs at the next address, after a tick and with the host's turn over. -/
theorem test_witness_DrawingTwiceErases : ∃ t later u : State, (0x0 : Nibble) ≠ 0xF ∧ (0x1 : Nibble) ≠ 0xF ∧
    (∀ k < (0x5 : Nibble).toNat, start.dataBase + k ≤ 0xFFF) ∧ exec (.drw 0x0 0x1 0x5) start = .next t ∧
    later = ({ t with pc := t.pc + 2, dt := 0x07 } : State).endTurn ∧ later.v = t.v ∧ later.i = t.i ∧ later.mem = t.mem ∧
    later.disp = t.disp ∧ exec (.drw 0x0 0x1 0x5) later = .next u ∧ ∀ c r, start.disp.cell c r = false :=
  ⟨_, _, _, by decide, by decide, by decide, rfl, rfl, rfl, rfl, rfl, rfl, rfl, by decide⟩

theorem test_witness_KeySkips : ((regs [(0x2, 0x0F)]).readV 0x2).toNat ≤ 0xF ∧ 0xF < ((regs [(0x2, 0x10)]).readV 0x2).toNat := by
  decide

theorem test_witness_TimerMoves : ∃ a b c, step (fetching 0xF107) = .next a ∧ step (fetching 0xF115) = .next b ∧
    step (fetching 0xF118) = .next c ∧ decode (fetching 0xF107).nextWord = .ok (.ldVxDt 0x1) ∧
    decode (fetching 0xF115).nextWord = .ok (.ldDtVx 0x1) ∧ decode (fetching 0xF118).nextWord = .ok (.ldStVx 0x1) :=
  ⟨_, _, _, rfl, rfl, rfl, by decide, by decide, by decide⟩

theorem test_witness_KeyWaitEntry : (fetching 0xF20A).ReadyToFetch ∧ decode (fetching 0xF20A).nextWord = .ok (.ldVxK 0x2) :=
  ⟨fetching_ready _, by decide⟩

theorem test_witness_BcdStore : start.mem.wf ∧
    (∀ k < 3, 0x050 ≤ ({ start with i := 0x0050 } : State).dataBase + k ∧ ({ start with i := 0x0050 } : State).dataBase + k ≤ 0xFFF) ∧
    ∀ k < 3, 0x050 ≤ ({ start with i := 0x0FFD } : State).dataBase + k ∧ ({ start with i := 0x0FFD } : State).dataBase + k ≤ 0xFFF := by
  decide

theorem test_witness_BulkStore : start.mem.wf ∧
    (∀ k ≤ (0x0 : Nibble).toNat, 0x050 ≤ ({ start with i := 0x0050 } : State).dataBase + k ∧
      ({ start with i := 0x0050 } : State).dataBase + k ≤ 0xFFF) ∧
    ∀ k ≤ (0xF : Nibble).toNat, 0x050 ≤ ({ start with i := 0x0FF0 } : State).dataBase + k ∧
      ({ start with i := 0x0FF0 } : State).dataBase + k ≤ 0xFFF := by decide

theorem test_witness_BulkLoad : (∀ k ≤ (0xF : Nibble).toNat, start.dataBase + k ≤ 0xFFF) ∧
    ∀ k ≤ (0xF : Nibble).toNat, ({ start with i := 0x0FF0 } : State).dataBase + k ≤ 0xFFF := by decide

theorem test_witness_DataAccessesFault_write :
    ((∀ j < 2, 0x050 ≤ ({ start with i := 0x0FFE } : State).dataBase + j ∧ ({ start with i := 0x0FFE } : State).dataBase + j ≤ 0xFFF) ∧
      0xFFF < ({ start with i := 0x0FFE } : State).dataBase + 2 ∧ 2 < 3 ∧ 2 ≤ (0x2 : Nibble).toNat) ∧
    (∀ j < 0, 0x050 ≤ ({ start with i := 0x004F } : State).dataBase + j ∧ ({ start with i := 0x004F } : State).dataBase + j ≤ 0xFFF) ∧
      ({ start with i := 0x004F } : State).dataBase + 0 ≤ 0x04F ∧ 0 < 3 ∧ 0 ≤ (0x0 : Nibble).toNat := by decide

theorem test_witness_DataAccessesFault_read : (∀ j < 1, ({ start with i := 0x0FFF } : State).dataBase + j ≤ 0xFFF) ∧
    0xFFF < ({ start with i := 0x0FFF } : State).dataBase + 1 ∧ 1 ≤ (0x1 : Nibble).toNat ∧ 1 < (0x2 : Nibble).toNat := by decide

theorem test_witness_OnlyCompletedCyclesProduceOutput : ∃ s' t' f, step (fetching 0x00EE) = .next s' ∧ s'.halt = some f ∧
    step { waiting (some 0x7) with displayChanged := true } = .next t' ∧
    ({ waiting (some 0x7) with displayChanged := true } : State).wait = .awaitingKey 0x2 := ⟨_, _, _, rfl, rfl, rfl, rfl⟩

end Sys2Proof.Tests
end

section
/-! PROOF. Who writes `WAIT` (10_state.md R31): of the handlers FX0A alone, and outside the handlers the key edge alone. -/

namespace Sys2Proof.Machine

/-! ## Handlers -/

/-- A raise keeps `WAIT`. -/
theorem raise_wait {w : Word} {kind : FaultKind} {s t : State} (h : raise w kind s = .next t) : t.wait = s.wait := by
  obtain rfl := Host.Outcome.next.inj h
  rfl

/-- A checked handler keeps `WAIT` when its effect does. -/
theorem guarded_wait {w : Word} {check : Option FaultKind} {s effect t : State} (h : guarded w check s effect = .next t)
    (he : effect.wait = s.wait) : t.wait = s.wait := by
  cases check with
  | some kind => exact raise_wait h
  | none =>
    obtain rfl := Host.Outcome.next.inj h
    exact he

/-- A handler keeps `WAIT`, but for FX0A, which awaits a key into the register it names. -/
theorem exec_wait {i : Instr} {s t : State} (h : exec i s = .next t) :
    t.wait = s.wait ∨ ∃ x, i = .ldVxK x ∧ t.wait = .awaitingKey x := by
  cases i with
  | ldVxK x =>
    obtain rfl := Host.Outcome.next.inj h
    exact .inr ⟨x, rfl, rfl⟩
  | ret x =>
    simp only [exec, execRet] at h
    split at h
    · obtain rfl := Host.Outcome.next.inj h
      exact .inl rfl
    · exact .inl (raise_wait h)
  | call nnn =>
    simp only [exec, execCall] at h
    split at h
    · obtain rfl := Host.Outcome.next.inj h
      exact .inl rfl
    · exact .inl (raise_wait h)
  | drw | skp | sknp | ldBVx | ldMemVx => exact .inl (guarded_wait h rfl)
  | ldVxMem x => exact .inl (guarded_wait h (by rw [State.loadRegisters_frame]))
  | _ =>
    obtain rfl := Host.Outcome.next.inj h
    exact .inl rfl

/-! ## Steps -/

/-- A cycle keeps `WAIT`, but for one that runs an FX0A: a fault of any kind keeps it too. -/
theorem CycleCase.wait_eq {s s' : State} (h : CycleCase s s') :
    s'.wait = s.wait ∨ ∃ x, decode s.nextWord = .ok (.ldVxK x) ∧ s'.wait = .awaitingKey x := by
  cases h with
  | fetchFault _ _ result => exact .inl (by rw [result, State.enterFault_wait])
  | unrecognized _ _ _ result => exact .inl (by rw [result, State.enterFault_wait])
  | raised _ _ _ _ _ result => exact .inl (by rw [result, State.enterFault_wait])
  | completed _ i word t handler _ result =>
    rw [result, State.endCycle_wait]
    rcases exec_wait handler with hsame | ⟨x, rfl, ht⟩
    · exact .inl hsame
    · exact .inr ⟨x, word, ht⟩

/-- A host turn while waiting keeps `WAIT`, but for one that brings an edge, which ends Running. -/
theorem waitTurn_wait {s : State} {x : Nibble} (hw : s.wait = .awaitingKey x) :
    (waitTurn s).wait = s.wait ∨ (waitTurn s).wait = .running ∧ ∃ k, s.hostTurn.edge = some k := by
  rw [waitTurn_eq hw]
  cases s.hostTurn.edge with
  | none => exact .inl rfl
  | some k => exact .inr ⟨rfl, k, rfl⟩

/-- Settles O21: the first half from what a cycle does to `WAIT`, the second from what a host turn does to it. -/
theorem onlyFX0AEntersTheWaitOnlyAnEdgeLeavesIt : Obligations.OnlyFX0AEntersTheWaitOnlyAnEdgeLeavesIt := by
  refine ⟨fun s s' x hstep hrun hwait => ?_, fun s s' x hstep hwait hleft => ?_, rfl⟩
  · obtain ⟨_, ⟨_, hcycle⟩ | ⟨y, hy, _⟩⟩ := step_cases hstep
    · rcases hcycle.wait_eq with hsame | ⟨y, hword, hy⟩
      · rw [hsame, hrun] at hwait
        cases hwait
      · obtain rfl : y = x := WaitState.awaitingKey.inj (hy.symm.trans hwait)
        exact hword
    · rw [hrun] at hy
      cases hy
  · obtain ⟨_, ⟨hrun, _⟩ | ⟨y, hy, rfl⟩⟩ := step_cases hstep
    · rw [hwait] at hrun
      cases hrun
    · exact (waitTurn_wait hy).resolve_left fun hsame => hleft (hsame.trans hwait)

end Sys2Proof.Machine
end

section
/-! PROOF. The fields the decoder reads are the bits of the word (30_encoding.md R72). -/

namespace Sys2Proof

/-- The top nibble is the quotient alone: a 16-bit word has nothing above bit 15 (30_encoding.md R71). -/
theorem toNat_opOf_eq_div (w : Word) : (opOf w).toNat = w.toNat / 4096 := by
  rw [toNat_opOf]
  have hw : w.toNat < 65536 := w.isLt
  exact Nat.mod_eq_of_lt (by omega)

/-- Settles O1: each field by its lemma as arithmetic on the word, the source's example by evaluation. -/
theorem decoderFieldsAreWordBits : Obligations.DecoderFieldsAreWordBits := by
  refine ⟨fun w => ?_, by decide⟩
  exact ⟨toNat_opOf_eq_div w, toNat_xOf w, toNat_yOf w, toNat_nOf w, toNat_nnnOf w, toNat_kkOf w⟩

end Sys2Proof
end

section
/-! PROOF. The jump JP nnn (41_control_flow.md R132): its encoding, its effect, and the fetch at an odd target. -/

namespace Sys2Proof

/-- The top nibble of a masked word: extraction commutes with the mask. -/
theorem opOf_and (w mask : Word) : opOf (w &&& mask) = opOf w &&& opOf mask :=
  BitVec.extractLsb'_and

/-- A mask that keeps all four bits of the top nibble lets the pattern fix it (30_encoding.md R77). -/
theorem opOf_eq_of_masked {w mask pattern : Word} (hmask : opOf mask = 0xF) (h : w &&& mask = pattern) :
    opOf w = opOf pattern := by
  have hkeep : opOf w &&& 0xF = opOf w := BitVec.and_allOnes
  rw [← h, opOf_and, hmask, hkeep]

end Sys2Proof

namespace Sys2Proof.Machine

/-- The zero extension of NNN keeps its value. -/
theorem zext12_eq_ofNat (nnn : Imm12) : zext12 nnn = BitVec.ofNat 16 nnn.toNat :=
  (BitVec.ofNat_toNat 16 nnn).symm

theorem toNat_zext12 (nnn : Imm12) : (zext12 nnn).toNat = nnn.toNat :=
  BitVec.toNat_setWidth_of_le (by decide)

/-- Every word with top nibble 1 is a jump to its own NNN (30_encoding.md R78). -/
theorem encodedBy_jp : EncodedBy 0xF000 0x1000 (fun w => .jp (nnnOf w)) := by
  intro w hw
  have hop : opOf w = 0x1 := opOf_eq_of_masked (by decide) hw
  simp [decode, hop]

/-- A jump sets PC to NNN itself: the advance of the cycle is not added again. -/
theorem exec_jp (nnn : Imm12) (s : State) : exec (.jp nnn) s = .next (s.setPc (zext12 nnn)) := rfl

/-- No odd address passes the fetch checks when P_ODD_FETCH is fault. -/
theorem fetchCheck_fault_ne_none_of_odd {pc : Word} (hodd : pc.toNat % 2 = 1) : fetchCheck .fault pc ≠ none := by
  intro hpass
  obtain ⟨_, heven⟩ := fetchCheck_eq_none.mp hpass
  have hzero : pc.toNat % 2 = 0 := heven rfl
  omega

/-- Settles O36: the encoding from the top nibble, the effect from the handler, the odd target from the fetch checks. -/
theorem jumpSetsPC : Obligations.JumpSetsPC := by
  refine ⟨encodedBy_jp, fun nnn s => ?_⟩
  rw [← zext12_eq_ofNat]
  refine ⟨exec_jp nnn s, fun hodd => fetchCheck_fault_ne_none_of_odd ?_⟩
  rwa [toNat_zext12]

end Sys2Proof.Machine
end

section
/-! PROOF. When the timers tick (60_exceptions.md R255): at the end of a completed cycle, and at no other step. -/

namespace Sys2Proof.Machine

/-- A cycle enters a fault in the state it started in, or completes: the handler of the word at PC runs, and the end of the
cycle follows. -/
theorem CycleCase.enterFault_or_endCycle {s s' : State} (h : CycleCase s s') :
    (∃ f, s' = s.enterFault f) ∨
      ∃ i t, decode s.nextWord = .ok i ∧ exec i s.entry = .next t ∧ t.halt = none ∧ s' = t.endCycle := by
  cases h with
  | fetchFault _ _ result | unrecognized _ _ _ result | raised _ _ _ _ _ result => exact .inl ⟨_, result⟩
  | completed _ i word t handler running result => exact .inr ⟨i, t, word, handler, running, result⟩

/-- A cycle that ends with `HALT` none leaves the timers its handler left, ticked. -/
theorem CycleCase.timers_of_completed {s s' t : State} {i : Instr} (h : CycleCase s s') (hword : decode s.nextWord = .ok i)
    (hexec : exec i s.entry = .next t) (hdone : s'.halt = none) : s'.dt = tick t.dt ∧ s'.st = tick t.st := by
  obtain ⟨f, rfl⟩ | ⟨j, u, hj, hu, -, rfl⟩ := h.enterFault_or_endCycle
  · cases hdone
  · obtain rfl : j = i := Except.ok.inj (hj.symm.trans hword)
    obtain rfl : u = t := Host.Outcome.next.inj (hu.symm.trans hexec)
    exact ⟨u.endCycle_dt, u.endCycle_st⟩

/-- A cycle that ends with `HALT` set keeps both timers. -/
theorem CycleCase.timers_of_faulted {s s' : State} (h : CycleCase s s') (hhalt : s'.halt ≠ none) :
    s'.dt = s.dt ∧ s'.st = s.st := by
  obtain ⟨f, rfl⟩ | ⟨_, t, -, -, ht, rfl⟩ := h.enterFault_or_endCycle
  · exact ⟨s.enterFault_dt f, s.enterFault_st f⟩
  · exact absurd (t.endCycle_halt.trans ht) hhalt

/-- A host turn while waiting keeps both timers, with an edge or without one. -/
theorem waitTurn_timers {s : State} {x : Nibble} (hw : s.wait = .awaitingKey x) :
    (waitTurn s).dt = s.dt ∧ (waitTurn s).st = s.st := by
  rw [waitTurn_eq hw]
  cases s.hostTurn.edge with
  | none => exact ⟨rfl, rfl⟩
  | some k => exact ⟨rfl, rfl⟩

/-- Settles O16: a cycle ticks what its handler left exactly when it completes, and a host turn while waiting ticks nothing. -/
theorem timersTickOncePerCompletedCycle : Obligations.TimersTickOncePerCompletedCycle := by
  intro s s' hstep
  obtain ⟨-, ⟨hrun, hcycle⟩ | ⟨x, hwait, rfl⟩⟩ := step_cases hstep
  · refine ⟨fun i t _ hword hexec hdone => ?_, hcycle.timers_of_faulted, fun x hx => ?_⟩
    · obtain ⟨hdt, hst⟩ := hcycle.timers_of_completed hword hexec hdone
      rw [hdt, hst]
      exact ⟨toNat_tick t.dt, toNat_tick t.st⟩
    · rw [hrun] at hx
      cases hx
  · refine ⟨fun i t hrun => ?_, fun _ => waitTurn_timers hwait, fun _ _ => waitTurn_timers hwait⟩
    rw [hwait] at hrun
    cases hrun

end Sys2Proof.Machine
end

section
/-! PROOF. Start-up without an image (70_reset_and_hazards.md R272): `ProgramLoadFailure`, and no cycle. -/

namespace Sys2Proof.Machine

/-- A core with `HALT` set has no next state (40_step_engine.md R101). -/
theorem step_ne_next_of_halt {s : State} {f : FaultRecord} (h : s.halt = some f) (t : State) : step s ≠ .next t := by
  intro hstep
  obtain ⟨hnone, -⟩ := step_cases hstep
  rw [hnone] at h
  cases h

/-- Start-up without an image enters `ProgramLoadFailure` with neither a PC nor a word: no cycle ran (R240, R272). -/
theorem boot_none_halt : (boot none).halt = some ⟨.programLoadFailure, none, none⟩ :=
  State.reset.enterFault_halt _

/-- Settles O32: the halt record start-up leaves, and from it the missing step and the exit status. -/
theorem loadFailureRunsNoCycle : Obligations.LoadFailureRunsNoCycle :=
  ⟨⟨_, boot_none_halt, rfl⟩, step_ne_next_of_halt boot_none_halt, State.exitStatus_of_halt boot_none_halt⟩

end Sys2Proof.Machine
end

section
/-! PROOF. The dispatch table (30_encoding.md R75 to R83): matching under a mask, and the decoder, the encoder and the
table against one another. -/

namespace Sys2Proof

/-! ## Matching under a mask -/

/-- The mask of a simple entry keeps the top nibble. -/
theorem and_simpleMask (w : Word) : w &&& 0xF000 = packNNN (opOf w) 0 := by
  apply BitVec.eq_of_getLsbD_eq
  intro i hi
  simp only [opOf, packNNN, BitVec.getLsbD_and, BitVec.getLsbD_extractLsb', BitVec.getLsbD_append]
  interval_cases i <;> simp

/-- The mask of a byte variant keeps the top nibble and the low byte. -/
theorem and_byteMask (w : Word) : w &&& 0xF0FF = packXKK (opOf w) 0 (kkOf w) := by
  apply BitVec.eq_of_getLsbD_eq
  intro i hi
  simp only [opOf, kkOf, packXKK, BitVec.getLsbD_and, BitVec.getLsbD_extractLsb', BitVec.getLsbD_append]
  interval_cases i <;> simp

/-- The mask of a nibble variant keeps the top nibble and the low nibble. -/
theorem and_nibbleMask (w : Word) : w &&& 0xF00F = packXYN (opOf w) 0 0 (nOf w) := by
  apply BitVec.eq_of_getLsbD_eq
  intro i hi
  simp only [opOf, nOf, packXYN, BitVec.getLsbD_and, BitVec.getLsbD_extractLsb', BitVec.getLsbD_append]
  interval_cases i <;> simp

theorem packNNN_zero_inj {op op' : Nibble} : packNNN op 0 = packNNN op' 0 ↔ op = op' := by
  refine ⟨fun h => ?_, fun h => by rw [h]⟩
  simpa using congrArg opOf h

theorem packXKK_zero_inj {op op' : Nibble} {kk kk' : Byte} :
    packXKK op 0 kk = packXKK op' 0 kk' ↔ op = op' ∧ kk = kk' := by
  refine ⟨fun h => ⟨?_, ?_⟩, fun ⟨hop, hkk⟩ => by rw [hop, hkk]⟩
  · simpa using congrArg opOf h
  · simpa using congrArg kkOf h

theorem packXYN_zero_inj {op op' n n' : Nibble} : packXYN op 0 0 n = packXYN op' 0 0 n' ↔ op = op' ∧ n = n' := by
  refine ⟨fun h => ⟨?_, ?_⟩, fun ⟨hop, hn⟩ => by rw [hop, hn]⟩
  · simpa using congrArg opOf h
  · simpa using congrArg nOf h

/-- An entry of any kind matches the words that agree with its pattern under its mask. -/
theorem TableEntry.matches_iff_masked (e : TableEntry) (w : Word) :
    e.matches w = true ↔ w &&& e.mask = e.pattern &&& e.mask := by
  obtain ⟨kind, pattern, build⟩ := e
  cases kind with
  | simple => simp only [TableEntry.matches, TableEntry.mask, Bool.and_true, beq_iff_eq, and_simpleMask, packNNN_zero_inj]
  | variantByte =>
    simp only [TableEntry.matches, TableEntry.mask, Bool.and_eq_true, beq_iff_eq, and_byteMask, packXKK_zero_inj]
  | variantNibble =>
    simp only [TableEntry.matches, TableEntry.mask, Bool.and_eq_true, beq_iff_eq, and_nibbleMask, packXYN_zero_inj]

/-- No pattern of the table has a bit outside its entry's mask. -/
theorem pattern_and_mask : ∀ e ∈ dispatchTable, e.pattern &&& e.mask = e.pattern := by decide

/-- Settles O6: a match is agreement under the mask, and a pattern lies inside its mask. -/
theorem tableMatchIsMaskAndMatch : Obligations.TableMatchIsMaskAndMatch := by
  intro e he w
  rw [e.matches_iff_masked, pattern_and_mask e he]

/-! ## No two entries match -/

/-- Entries of one top nibble are of one kind, so they compare the same bits. -/
theorem mask_eq_of_opOf_eq : ∀ e ∈ dispatchTable, ∀ f ∈ dispatchTable,
    opOf e.pattern = opOf f.pattern → e.mask = f.mask := by
  decide

theorem patterns_nodup : (dispatchTable.map TableEntry.pattern).Nodup := by decide

theorem TableEntry.opOf_eq_of_matches {e : TableEntry} {w : Word} (h : e.matches w = true) : opOf w = opOf e.pattern := by
  rw [TableEntry.matches, Bool.and_eq_true, beq_iff_eq] at h
  exact h.1

/-- Two entries that match one word have one pattern: it is the word under their common mask. -/
theorem pattern_eq_of_matches {e f : TableEntry} (he : e ∈ dispatchTable) (hf : f ∈ dispatchTable) {w : Word}
    (hew : e.matches w = true) (hfw : f.matches w = true) : e.pattern = f.pattern := by
  have hop : opOf e.pattern = opOf f.pattern :=
    (TableEntry.opOf_eq_of_matches hew).symm.trans (TableEntry.opOf_eq_of_matches hfw)
  have hmask : e.mask = f.mask := mask_eq_of_opOf_eq e he f hf hop
  rw [← (tableMatchIsMaskAndMatch e he w).mp hew, ← (tableMatchIsMaskAndMatch f hf w).mp hfw, hmask]

/-- Settles O7: entries that match one word have one pattern, and the table lists no pattern twice. -/
theorem atMostOneEntryMatches : Obligations.AtMostOneEntryMatches := by
  intro w j k hj hk hjw hkw
  have hpattern := pattern_eq_of_matches (List.getElem_mem hj) (List.getElem_mem hk) hjw hkw
  exact (patterns_nodup.getElem_inj_iff (hi := by simpa using hj) (hj := by simpa using hk)).mp (by simpa using hpattern)

/-! ## Decoding against encoding -/

theorem packNNN_of_fields {w : Word} {op : Nibble} (hop : (opOf w).toNat = op.toNat) : packNNN op (nnnOf w) = w := by
  rw [← BitVec.eq_of_toNat_eq hop, packNNN_fields]

theorem packXKK_of_fields {w : Word} {op : Nibble} {kk : Byte} (hop : (opOf w).toNat = op.toNat)
    (hkk : (kkOf w).toNat = kk.toNat) : packXKK op (xOf w) kk = w := by
  rw [← BitVec.eq_of_toNat_eq hop, ← BitVec.eq_of_toNat_eq hkk, packXKK_fields]

theorem packXYN_of_fields {w : Word} {op n : Nibble} (hop : (opOf w).toNat = op.toNat)
    (hn : (nOf w).toNat = n.toNat) : packXYN op (xOf w) (yOf w) n = w := by
  rw [← BitVec.eq_of_toNat_eq hop, ← BitVec.eq_of_toNat_eq hn, packXYN_fields]

theorem encode_of_decodeSystem {w : Word} {i : Instr} (hop : (opOf w).toNat = 0x0) (h : decodeSystem w = .ok i) :
    encode i = w := by
  unfold decodeSystem at h
  split at h <;> cases h
  all_goals exact packXKK_of_fields hop ‹_›

theorem encode_of_decodeAlu {w : Word} {i : Instr} (hop : (opOf w).toNat = 0x8) (h : decodeAlu w = .ok i) :
    encode i = w := by
  unfold decodeAlu at h
  split at h <;> cases h
  all_goals exact packXYN_of_fields hop ‹_›

theorem encode_of_decodeKeySkip {w : Word} {i : Instr} (hop : (opOf w).toNat = 0xE) (h : decodeKeySkip w = .ok i) :
    encode i = w := by
  unfold decodeKeySkip at h
  split at h <;> cases h
  all_goals exact packXKK_of_fields hop ‹_›

theorem encode_of_decodeMisc {w : Word} {i : Instr} (hop : (opOf w).toNat = 0xF) (h : decodeMisc w = .ok i) :
    encode i = w := by
  unfold decodeMisc at h
  split at h <;> cases h
  all_goals exact packXKK_of_fields hop ‹_›

/-- Settles O4: by the arms of the decoder, each of which keeps every bit of the word as a field or fixes it. -/
theorem encodeOfDecodeIsTheWord : Obligations.EncodeOfDecodeIsTheWord := by
  intro w i h
  have hlt : (opOf w).toNat < 16 := (opOf w).isLt
  unfold decode at h
  split at h
  case h_1 hop => exact encode_of_decodeSystem hop h
  case h_9 hop => exact encode_of_decodeAlu hop h
  case h_15 hop => exact encode_of_decodeKeySkip hop h
  case h_16 =>
    simp only [imp_false] at *
    exact encode_of_decodeMisc (by omega) h
  case h_2 hop | h_3 hop | h_11 hop | h_12 hop => cases h; exact packNNN_of_fields hop
  case h_4 hop | h_5 hop | h_7 hop | h_8 hop | h_13 hop => cases h; exact packXKK_of_fields hop rfl
  case h_6 hop | h_10 hop | h_14 hop => cases h; exact packXYN_of_fields hop rfl

/-! ## The decoder against the table -/

theorem decode_eq_build_of_matches {e : TableEntry} (he : e ∈ dispatchTable) {w : Word} (h : e.matches w = true) :
    decode w = .ok (e.build w) := by
  simp only [dispatchTable, tableLow, tableAlu, tableHigh, tableMisc, List.cons_append, List.nil_append, List.mem_cons,
    List.not_mem_nil, or_false] at he
  rcases he with rfl | rfl | rfl | rfl | rfl | rfl | rfl | rfl | rfl | rfl | rfl | rfl | rfl | rfl | rfl | rfl | rfl | rfl |
    rfl | rfl | rfl | rfl | rfl | rfl | rfl | rfl | rfl | rfl | rfl | rfl | rfl | rfl | rfl | rfl
  all_goals
    simp only [TableEntry.matches, Bool.and_eq_true, beq_iff_eq] at h
    simp only [decode, decodeSystem, decodeAlu, decodeKeySkip, decodeMisc, h]
    rfl

open Laws.EncodingInTable in
/-- The laws of the encoding, one per instruction, in one statement. -/
theorem encoding_in_table : ∀ i : Instr, Statement i
  | .cls .. => cls ..
  | .ret .. => ret ..
  | .jp .. => jp ..
  | .call .. => call ..
  | .seImm .. => seImm ..
  | .sneImm .. => sneImm ..
  | .seReg .. => seReg ..
  | .ldImm .. => ldImm ..
  | .addImm .. => addImm ..
  | .ldReg .. => ldReg ..
  | .orReg .. => orReg ..
  | .andReg .. => andReg ..
  | .xorReg .. => xorReg ..
  | .addReg .. => addReg ..
  | .subReg .. => subReg ..
  | .shr .. => shr ..
  | .subnReg .. => subnReg ..
  | .shl .. => shl ..
  | .sneReg .. => sneReg ..
  | .ldI .. => ldI ..
  | .jpV0 .. => jpV0 ..
  | .rnd .. => rnd ..
  | .drw .. => drw ..
  | .skp .. => skp ..
  | .sknp .. => sknp ..
  | .ldVxDt .. => ldVxDt ..
  | .ldVxK .. => ldVxK ..
  | .ldDtVx .. => ldDtVx ..
  | .ldStVx .. => ldStVx ..
  | .addIVx .. => addIVx ..
  | .ldFVx .. => ldFVx ..
  | .ldBVx .. => ldBVx ..
  | .ldMemVx .. => ldMemVx ..
  | .ldVxMem .. => ldVxMem ..

/-- The decoder undoes the encoder: the word's entry builds the instruction back. -/
theorem decode_encode (i : Instr) : decode (encode i) = .ok i := by
  obtain ⟨e, he, hmatch, hbuild⟩ := encoding_in_table i
  rw [decode_eq_build_of_matches he hmatch, hbuild]

theorem decodeBytes_encodeBytes (i : Instr) (rest : List Byte) :
    decodeBytes (encodeBytes i ++ rest) = .ok (i, rest) := by
  simp only [encodeBytes, List.cons_append, List.nil_append, decodeBytes, joinBytes_bytes, decode_encode]
  rfl

/-- Settles O3: the word's own table entry decodes it, and the two bytes join to the word again. -/
theorem decodeOfEncodeIsTheInstruction : Obligations.DecodeOfEncodeIsTheInstruction :=
  ⟨decode_encode, decodeBytes_encodeBytes⟩

/-- A word that decodes is matched by the entry of its instruction. -/
theorem exists_match_of_decode {w : Word} {i : Instr} (h : decode w = .ok i) :
    ∃ e ∈ dispatchTable, e.matches w = true ∧ e.build w = i := by
  rw [← encodeOfDecodeIsTheWord w i h]
  exact encoding_in_table i

/-- The decoder rejects a word by its name alone (30_encoding.md R80). -/
theorem decode_error {w : Word} {r : Reject} (h : decode w = .error r) : r = .unrecognizedInstruction w := by
  unfold decode decodeSystem decodeAlu decodeKeySkip decodeMisc at h
  repeat' split at h
  all_goals simpa using h.symm

/-- The decoder rejects exactly the words no entry matches. -/
theorem decode_eq_error_iff {w : Word} :
    decode w = .error (.unrecognizedInstruction w) ↔ ∀ e ∈ dispatchTable, e.matches w = false := by
  constructor
  · intro h e he
    by_contra hmatch
    rw [decode_eq_build_of_matches he (Bool.eq_true_of_not_eq_false hmatch)] at h
    cases h
  · intro hnone
    cases hw : decode w with
    | error r => rw [decode_error hw]
    | ok i =>
      obtain ⟨e, he, hmatch, -⟩ := exists_match_of_decode hw
      rw [hnone e he] at hmatch
      cases hmatch

theorem mem_and_matches_of_dispatch {w : Word} {e : TableEntry} (h : dispatch w = some e) :
    e ∈ dispatchTable ∧ e.matches w = true :=
  ⟨List.mem_of_find?_eq_some h, List.find?_some (p := fun e : TableEntry => e.matches w) h⟩

/-- Settles O5: the first entry that matches builds what the decoder answers, and where none matches it rejects. -/
theorem decodeIsFirstMatchInTheTable : Obligations.DecodeIsFirstMatchInTheTable := by
  refine ⟨rfl, fun w => ?_⟩
  cases hfirst : dispatch w with
  | some e =>
    obtain ⟨he, hmatch⟩ := mem_and_matches_of_dispatch hfirst
    exact decode_eq_build_of_matches he hmatch
  | none =>
    refine decode_eq_error_iff.mpr fun e he => ?_
    simpa using List.find?_eq_none.mp hfirst e he

/-- Every row of the table is an encoding: the words of its mask and pattern decode to what it builds. -/
theorem encodedBy_of_mem {e : TableEntry} (he : e ∈ dispatchTable) : Machine.EncodedBy e.mask e.pattern e.build :=
  fun w hw => decode_eq_build_of_matches he ((tableMatchIsMaskAndMatch e he w).mpr hw)

/-! ## The illegal words -/

theorem decodeSystem_eq_error_iff {w : Word} :
    decodeSystem w = .error (.unrecognizedInstruction w) ↔ (kkOf w).toNat ≠ 0xE0 ∧ (kkOf w).toNat ≠ 0xEE := by
  unfold decodeSystem
  split <;> simp_all

theorem decodeAlu_eq_error_iff {w : Word} :
    decodeAlu w = .error (.unrecognizedInstruction w) ↔ 0x8 ≤ (nOf w).toNat ∧ (nOf w).toNat ≠ 0xE := by
  unfold decodeAlu
  split <;> simp_all
  omega

theorem decodeKeySkip_eq_error_iff {w : Word} :
    decodeKeySkip w = .error (.unrecognizedInstruction w) ↔ (kkOf w).toNat ≠ 0x9E ∧ (kkOf w).toNat ≠ 0xA1 := by
  unfold decodeKeySkip
  split <;> simp_all

theorem decodeMisc_eq_error_iff {w : Word} : decodeMisc w = .error (.unrecognizedInstruction w) ↔
    (kkOf w).toNat ∉ [0x07, 0x0A, 0x15, 0x18, 0x1E, 0x29, 0x33, 0x55, 0x65] := by
  unfold decodeMisc
  split <;> simp_all

/-- Settles O8: by the top nibble, from what each of the four second-level decoders rejects. -/
theorem illegalWordsAreExactly : Obligations.IllegalWordsAreExactly := by
  intro w
  rw [← toNat_opOf_eq_div, ← toNat_kkOf, ← toNat_nOf]
  have hlt : (opOf w).toNat < 16 := (opOf w).isLt
  unfold decode
  split
  case h_1 hop => simp [hop, decodeSystem_eq_error_iff]
  case h_9 hop => simp [hop, decodeAlu_eq_error_iff]
  case h_15 hop => simp [hop, decodeKeySkip_eq_error_iff]
  case h_16 =>
    simp only [imp_false] at *
    have hop : (opOf w).toNat = 0xF := by omega
    simp [hop, decodeMisc_eq_error_iff]
  all_goals simp [*]

/-- Settles O2: by running the decoder. -/
theorem writtenOutWordsDecode : Obligations.WrittenOutWordsDecode := by
  unfold Obligations.WrittenOutWordsDecode
  decide

end Sys2Proof
end

section
/-! PROOF. What a handler can do, said once: the fault it raises and why, or the part of the state it writes and by which
instruction. -/

namespace Sys2Proof.Machine

/-! ## What the checks find -/

theorem readCheck_eq_some {a : Nat} {kind : FaultKind} :
    readCheck a = some kind ↔ 0xFFF < a ∧ kind = .outOfRangeAddress .read a := by
  unfold readCheck
  split <;> simp_all [eq_comm]

/-- Under P_FONT_WRITE = fault the write check finds the range first, then the font table (20_memory.md R58). -/
theorem writeCheck_eq_some {a : Nat} {kind : FaultKind} : writeCheck fontWrite a = some kind ↔
    0xFFF < a ∧ kind = .outOfRangeAddress .write a ∨ a ≤ 0x04F ∧ kind = .fontRegionWrite a := by
  unfold writeCheck fontWrite
  split
  case isTrue habove =>
    have hnot : ¬ a ≤ 0x04F := by omega
    simp [habove, hnot, eq_comm]
  case isFalse habove => split <;> simp_all [eq_comm]

theorem keyCheck_eq_some {b : Byte} {kind : FaultKind} :
    keyCheck b = some kind ↔ 0xF < b.toNat ∧ kind = .keyIndexOutOfRange b := by
  unfold keyCheck
  split <;> simp_all [eq_comm]

theorem keyCheck_eq_none {b : Byte} : keyCheck b = none ↔ b.toNat ≤ 0xF := by
  unfold keyCheck
  split <;> simp_all

/-- A checked handler that answers `t` raised what its check found, or had its effect. -/
theorem guarded_inv {w : Word} {check : Option FaultKind} {s effect t : State} (h : guarded w check s effect = .next t) :
    (∃ kind, check = some kind ∧ t = s.raised w kind) ∨ check = none ∧ t = effect := by
  rcases guarded_cases w check s effect with ⟨kind, hcheck, heq⟩ | ⟨hcheck, heq⟩
  · exact .inl ⟨kind, hcheck, (Host.Outcome.next.inj (heq.symm.trans h)).symm⟩
  · exact .inr ⟨hcheck, (Host.Outcome.next.inj (heq.symm.trans h)).symm⟩

/-! ## Why a handler raises -/

/-- The causes for which a handler raises a fault on entry state `s` (60_exceptions.md R242 to R249). -/
inductive FaultCause (s : State) : Instr → FaultKind → Prop where
  | overflow (nnn : Imm12) (full : s.sp.val = 16) : FaultCause s (.call nnn) .stackOverflow
  | underflow (x : Nibble) (empty : s.sp.val = 0) : FaultCause s (.ret x) .stackUnderflow
  | key {i : Instr} (x : Nibble) (instr : i = .skp x ∨ i = .sknp x) (above : 0xF < (s.readV x).toNat) :
      FaultCause s i (.keyIndexOutOfRange (s.readV x))
  | read {i : Instr} (instr : (∃ x y n, i = .drw x y n) ∨ ∃ x, i = .ldVxMem x) (k : Nat) (offset : k ≤ 15)
      (above : 0xFFF < s.dataBase + k) : FaultCause s i (.outOfRangeAddress .read (s.dataBase + k))
  | write {i : Instr} (instr : (∃ x, i = .ldBVx x) ∨ ∃ x, i = .ldMemVx x) (k : Nat) (offset : k ≤ 15)
      (above : 0xFFF < s.dataBase + k) : FaultCause s i (.outOfRangeAddress .write (s.dataBase + k))
  | font {i : Instr} (instr : (∃ x, i = .ldBVx x) ∨ ∃ x, i = .ldMemVx x) (k : Nat) (offset : k ≤ 15)
      (inFont : s.dataBase + k ≤ 0x04F) : FaultCause s i (.fontRegionWrite (s.dataBase + k))

/-- A data read of at most 16 addresses faults for one of them above 0xFFF. -/
theorem FaultCause.of_readCheck {s : State} {i : Instr} {n : Nat} {kind : FaultKind}
    (instr : (∃ x y n, i = .drw x y n) ∨ ∃ x, i = .ldVxMem x) (hn : n ≤ 16)
    (h : firstFault readCheck s.dataBase n = some kind) : FaultCause s i kind := by
  obtain ⟨k, hk, hcheck, -⟩ := firstFault_eq_some.mp h
  obtain ⟨habove, rfl⟩ := readCheck_eq_some.mp hcheck
  exact .read instr k (by omega) habove

/-- A data write of at most 16 addresses faults for one of them above 0xFFF or in the font table. -/
theorem FaultCause.of_writeCheck {s : State} {i : Instr} {n : Nat} {kind : FaultKind}
    (instr : (∃ x, i = .ldBVx x) ∨ ∃ x, i = .ldMemVx x) (hn : n ≤ 16)
    (h : firstFault (writeCheck fontWrite) s.dataBase n = some kind) : FaultCause s i kind := by
  obtain ⟨k, hk, hcheck, -⟩ := firstFault_eq_some.mp h
  obtain ⟨habove, rfl⟩ | ⟨hfont, rfl⟩ := writeCheck_eq_some.mp hcheck
  · exact .write instr k (by omega) habove
  · exact .font instr k (by omega) hfont

/-! ## What a handler writes -/

/-- The next state `t` the handler of an instruction leaves, by what it writes of its entry state `s`. -/
inductive HandlerCase (s : State) : Instr → State → Prop where
  | raised {i : Instr} {kind : FaultKind} (cause : FaultCause s i kind) : HandlerCase s i (s.raised (encode i) kind)
  | register {i : Instr} (x : Nibble) (dest : i.HasDestination x) (b : Byte) : HandlerCase s i (s.writeV x b)
  | resultFlag {i : Instr} (x : Nibble) (dest : i.HasDestination x) (flags : i.WritesFlag) (b flag : Byte) :
      HandlerCase s i (s.writeResultFlag x b flag)
  | registers (x : Nibble) (bs : List Byte) (length : bs.length = x.toNat + 1) :
      HandlerCase s (.ldVxMem x) { s with v := (s.loadRegisters 0 bs).v }
  | index {i : Instr} (instr : (∃ nnn, i = .ldI nnn) ∨ ∃ x, i = .ldFVx x) (a : Word) : HandlerCase s i (s.setI a)
  | indexFlag (x : Nibble) (a : Word) (flag : Byte) : HandlerCase s (.addIVx x) ((s.setI a).writeV flagReg flag)
  /-- PC alone is written: a jump without a call, or a skip. -/
  | jump {i : Instr} (a : Word) : HandlerCase s i (s.setPc a)
  | call (nnn : Imm12) (free : s.sp.val < 16) : HandlerCase s (.call nnn) ((s.push s.pc free).setPc (zext12 nnn))
  | ret (x : Nibble) (used : 0 < s.sp.val) : HandlerCase s (.ret x) (s.pop used)
  | clear (x : Nibble) : HandlerCase s (.cls x) (s.redraw Display.clear)
  | draw (x y n : Nibble) (flag : Byte) (d : Display) : HandlerCase s (.drw x y n) ((s.writeV flagReg flag).redraw d)
  | delayTimer (x : Nibble) (b : Byte) : HandlerCase s (.ldDtVx x) (s.setDt b)
  | soundTimer (x : Nibble) (b : Byte) : HandlerCase s (.ldStVx x) (s.setSt b)
  | keyWait (x : Nibble) : HandlerCase s (.ldVxK x) (s.setWait (.awaitingKey x))
  | store {i : Instr} (bs : List Byte)
      (instr : (∃ x, i = .ldBVx x ∧ bs.length = 3) ∨ ∃ x, i = .ldMemVx x ∧ bs.length = x.toNat + 1)
      (range : ∀ k < bs.length, 0x04F < s.dataBase + k ∧ s.dataBase + k ≤ 0xFFF) :
      HandlerCase s i (s.setMem (s.mem.store s.dataBase bs))

/-- The addresses of a data write that passes its checks. -/
theorem range_of_writeCheck {base n : Nat} (h : firstFault (writeCheck fontWrite) base n = none) :
    ∀ k < n, 0x04F < base + k ∧ base + k ≤ 0xFFF := by
  intro k hk
  obtain ⟨hrange, hfont⟩ := writeCheck_eq_none.mp (firstFault_eq_none.mp h k hk)
  exact ⟨hfont rfl, hrange⟩

theorem length_registers (s : State) (n : Nat) : (s.registers n).length = n := by simp [State.registers]

theorem registerCount_le (x : Nibble) : registerCount x ≤ 16 := x.isLt

/-- Every handler answers in one of these ways. -/
theorem handlerCase_of_exec {i : Instr} {s t : State} (h : exec i s = .next t) : HandlerCase s i t := by
  cases i with
  | ret x =>
    simp only [exec, execRet] at h
    split at h
    · cases h; exact .ret x _
    · cases h; exact .raised (.underflow x (by omega))
  | call nnn =>
    simp only [exec, execCall] at h
    split at h
    · cases h; exact .call nnn _
    · cases h; exact .raised (.overflow nnn (by omega))
  | drw x y n =>
    obtain ⟨kind, hcheck, rfl⟩ | ⟨-, rfl⟩ := guarded_inv h
    · exact .raised (.of_readCheck (.inl ⟨x, y, n, rfl⟩) (by omega) hcheck)
    · exact .draw x y n _ _
  | skp x =>
    obtain ⟨kind, hcheck, rfl⟩ | ⟨-, rfl⟩ := guarded_inv h
    · obtain ⟨habove, rfl⟩ := keyCheck_eq_some.mp hcheck
      exact .raised (.key x (.inl rfl) habove)
    · exact .jump _
  | sknp x =>
    obtain ⟨kind, hcheck, rfl⟩ | ⟨-, rfl⟩ := guarded_inv h
    · obtain ⟨habove, rfl⟩ := keyCheck_eq_some.mp hcheck
      exact .raised (.key x (.inr rfl) habove)
    · exact .jump _
  | ldBVx x =>
    obtain ⟨kind, hcheck, rfl⟩ | ⟨hcheck, rfl⟩ := guarded_inv h
    · exact .raised (.of_writeCheck (.inl ⟨x, rfl⟩) (by omega) hcheck)
    · exact .store _ (.inl ⟨x, rfl, rfl⟩) (range_of_writeCheck hcheck)
  | ldMemVx x =>
    obtain ⟨kind, hcheck, rfl⟩ | ⟨hcheck, rfl⟩ := guarded_inv h
    · exact .raised (.of_writeCheck (.inr ⟨x, rfl⟩) (registerCount_le x) hcheck)
    · refine .store _ (.inr ⟨x, rfl, length_registers s _⟩) ?_
      rw [length_registers]
      exact range_of_writeCheck hcheck
  | ldVxMem x =>
    obtain ⟨kind, hcheck, rfl⟩ | ⟨-, rfl⟩ := guarded_inv h
    · exact .raised (.of_readCheck (.inr ⟨x, rfl⟩) (registerCount_le x) hcheck)
    · rw [State.loadRegisters_frame]
      exact .registers x _ (Memory.length_load ..)
  | cls x => cases h; exact .clear x
  | ldI nnn => cases h; exact .index (.inl ⟨nnn, rfl⟩) _
  | ldFVx x => cases h; exact .index (.inr ⟨x, rfl⟩) _
  | addIVx x => cases h; exact .indexFlag x _ _
  | ldDtVx x => cases h; exact .delayTimer x _
  | ldStVx x => cases h; exact .soundTimer x _
  | ldVxK x => cases h; exact .keyWait x
  | jp | jpV0 | seImm | sneImm | seReg | sneReg => cases h; exact .jump _
  | addReg x y | subReg x y | subnReg x y | shr x y | shl x y =>
    cases h
    exact .resultFlag x ⟨y, 0, by simp⟩ ⟨x, y, 0, by simp⟩ _ _
  | ldImm x kk | addImm x kk | rnd x kk => cases h; exact .register x ⟨0, kk, by simp⟩ _
  | ldReg x y | orReg x y | andReg x y | xorReg x y => cases h; exact .register x ⟨y, 0, by simp⟩ _
  | ldVxDt x => cases h; exact .register x ⟨0, 0, by simp⟩ _

end Sys2Proof.Machine
end

section
/-! PROOF. The invariant (20_memory.md, 41_control_flow.md, 45_input_timers.md section 3): it holds at reset and every step
keeps it. -/

namespace Sys2Proof.Machine

/-- A return address a call can have pushed: even, and after an address a fetch can read (41_control_flow.md R133). -/
def IsReturnAddress (a : Word) : Prop := a.toNat % 2 = 0 ∧ 2 ≤ a.toNat ∧ a.toNat ≤ 0x1000

/-- Every stack slot in use holds a return address. -/
def State.StackOk (s : State) : Prop := ∀ (j : Nat) (h : j < 16), j < s.sp.val → IsReturnAddress s.stack[j]

/-- PC does not wrap when it advances from an address of the space. -/
theorem toNat_advance {pc : Word} (h : pc.toNat ≤ 0x1000) : (pc + 2).toNat = pc.toNat + 2 := by
  rw [BitVec.toNat_add]
  exact Nat.mod_eq_of_lt (show pc.toNat + 2 < 65536 by omega)

theorem isReturnAddress_advance {pc : Word} (h : fetchCheck oddFetch pc = none) : IsReturnAddress (pc + 2) := by
  obtain ⟨hrange, heven⟩ := fetchCheck_eq_none.mp h
  have hzero : pc.toNat % 2 = 0 := heven rfl
  rw [IsReturnAddress, toNat_advance (by omega)]
  omega

/-! ## Handlers -/

/-- The bytes of a store stand inside the address space when each of its addresses does. -/
theorem store_end_le {base n : Nat} (h : ∀ k < n, 0x04F < base + k ∧ base + k ≤ 0xFFF) (hn : 0 < n) : base + n ≤ 4096 := by
  obtain ⟨-, hlast⟩ := h (n - 1) (by omega)
  omega

/-- Every handler keeps memory in its canonical form. -/
theorem HandlerCase.mem_wf {i : Instr} {s t : State} (h : HandlerCase s i t) (hm : s.mem.wf) : t.mem.wf := by
  cases h with
  | store bs instr range =>
    refine Memory.wf_store bs _ _ hm (store_end_le range ?_)
    obtain ⟨x, -, hlen⟩ | ⟨x, -, hlen⟩ := instr <;> omega
  | _ => exact hm

/-- A handler entered with PC at a return address keeps the stack a stack of return addresses. -/
theorem HandlerCase.stackOk {i : Instr} {s t : State} (h : HandlerCase s i t) (hpc : IsReturnAddress s.pc)
    (hs : s.StackOk) : t.StackOk := by
  cases h with
  | call nnn free =>
    intro j hj hlt
    have hget : ((s.push s.pc free).setPc (zext12 nnn)).stack[j] = if s.sp.val = j then s.pc else s.stack[j] :=
      Vector.getElem_set (hi := free) ..
    rw [hget]
    split
    · exact hpc
    · have hle : j < s.sp.val + 1 := hlt
      exact hs j hj (by omega)
  | ret x used =>
    intro j hj hlt
    have hlt' : j < s.sp.val - 1 := hlt
    exact hs j hj (by omega)
  | _ => exact hs

/-! ## Steps -/

theorem State.Inv.enterFault {s : State} (h : s.Inv) (f : FaultRecord) : (s.enterFault f).Inv :=
  ⟨h.memory, h.tone, h.returns, h.waiting⟩

/-- The end of a host turn touches nothing the invariant speaks of. -/
theorem State.Inv.endTurn {s : State} (h : s.Inv) : s.endTurn.Inv :=
  ⟨h.memory, h.tone, h.returns, h.waiting⟩

/-- A completed cycle that ran `i` awaits a key only when `i` is the FX0A that names it, and then memory has not changed and
PC stands just after the instruction. -/
theorem waiting_of_completed {s t : State} {i : Instr} {x : Nibble} (hrun : s.wait = .running)
    (h : exec i s.beginCycle = .next t) (hw : t.wait = .awaitingKey x) : i = .ldVxK x ∧ t.pc = s.pc + 2 ∧ t.mem = s.mem := by
  rcases exec_wait h with hsame | ⟨y, rfl, hy⟩
  · rw [hsame, State.beginCycle_wait, hrun] at hw
    cases hw
  · obtain rfl : y = x := WaitState.awaitingKey.inj (hy.symm.trans hw)
    cases h
    exact ⟨rfl, rfl, rfl⟩

/-- A cycle keeps the invariant. -/
theorem CycleCase.inv {s s' : State} (h : CycleCase s s') (hrun : s.wait = .running) (hs : s.Inv) : s'.Inv := by
  cases h with
  | fetchFault _ _ result | unrecognized _ _ _ result | raised _ _ _ _ _ result => rw [result]; exact hs.enterFault _
  | completed check i word t handler running result =>
    have hcase : HandlerCase s.beginCycle i t := handlerCase_of_exec handler
    rw [result]
    refine ⟨hcase.mem_wf hs.memory, rfl, hcase.stackOk (isReturnAddress_advance check) hs.returns, fun x hx => ?_⟩
    obtain ⟨rfl, hpc, hmem⟩ := waiting_of_completed hrun handler hx
    obtain ⟨heven, hlow, hhigh⟩ := isReturnAddress_advance check
    obtain ⟨hrange, -⟩ := fetchCheck_eq_none.mp check
    rw [State.endCycle_pc, State.endCycle_mem, hpc, hmem]
    refine ⟨heven, hlow, hhigh, ?_⟩
    rw [toNat_advance (by omega), Nat.add_sub_cancel]
    exact (encodeOfDecodeIsTheWord _ _ word).symm

/-- A host turn while waiting keeps the invariant: an edge ends the wait, and without one nothing of the core changes. -/
theorem waitTurn_inv {s : State} {x : Nibble} (hw : s.wait = .awaitingKey x) (hs : s.Inv) : (waitTurn s).Inv := by
  rw [waitTurn_eq hw]
  cases s.hostTurn.edge with
  | none => exact hs.endTurn
  | some k => exact ⟨hs.memory, hs.tone, hs.returns, fun y hy => nomatch hy⟩

/-- Settles O28: by the two kinds of step, from what every handler keeps. -/
theorem stepKeepsTheInvariant : Obligations.StepKeepsTheInvariant := by
  intro s s' hs hstep
  obtain ⟨-, ⟨hrun, hcycle⟩ | ⟨x, hwait, rfl⟩⟩ := step_cases hstep
  · exact hcycle.inv hrun hs
  · exact waitTurn_inv hwait hs

/-- Settles O27: memory lists nothing, SP is 0 and no key is awaited. -/
theorem resetSatisfiesTheInvariant : Obligations.ResetSatisfiesTheInvariant :=
  ⟨Memory.wf_nil, rfl, fun _ _ hlt => absurd hlt (Nat.not_lt_zero _), fun _ hwait => nomatch hwait⟩

end Sys2Proof.Machine
end

section
/-! PROOF. Steps by the way they end (40_step_engine.md sections 1 and 2, 60_exceptions.md sections 1 and 2): a completed
cycle, a faulting one, a wait. -/

namespace Sys2Proof.Machine

/-! ## What a step does, from what the word at PC and its handler give -/

/-- A step whose handler raises nothing is the end of the handler's cycle. -/
theorem State.ReadyToFetch.step_completes {s t : State} {i : Instr} (h : s.ReadyToFetch) (hword : decode s.nextWord = .ok i)
    (hexec : exec i s.entry = .next t) (ht : t.halt = none) : step s = .next t.endCycle := by
  have hexec' : exec i s.beginCycle = .next t := hexec
  simp only [h.step_eq, runWord, hword, hexec', finishCycle_next ht]

/-- A step whose handler raises leaves the starting state with the handler's record. -/
theorem State.ReadyToFetch.step_faults {s t : State} {i : Instr} {f : FaultRecord} (h : s.ReadyToFetch)
    (hword : decode s.nextWord = .ok i) (hexec : exec i s.entry = .next t) (ht : t.halt = some f) :
    step s = .next (s.enterFault f) := by
  have hexec' : exec i s.beginCycle = .next t := hexec
  simp only [h.step_eq, runWord, hword, hexec', finishCycle, ht]

/-- A step on a word that is no instruction. -/
theorem State.ReadyToFetch.step_unrecognized {s : State} (h : s.ReadyToFetch)
    (hword : decode s.nextWord = .error (.unrecognizedInstruction s.nextWord)) :
    step s = .next (s.halted .unrecognizedInstruction (some s.nextWord)) := by
  simp only [h.step_eq, runWord, hword]
  rfl

/-- A step whose fetch fails a check. -/
theorem step_fetchFault {s : State} {kind : FaultKind} (hhalt : s.halt = none) (hrun : s.wait = .running)
    (hcheck : fetchCheck oddFetch s.pc = some kind) : step s = .next (s.halted kind none) := by
  simp only [step_running hhalt hrun, cycle, hcheck]
  rfl

theorem readyToFetch_of_check {s : State} (hhalt : s.halt = none) (hrun : s.wait = .running)
    (hcheck : fetchCheck oddFetch s.pc = none) : s.ReadyToFetch := by
  obtain ⟨hrange, heven⟩ := fetchCheck_eq_none.mp hcheck
  exact ⟨hhalt, hrun, hrange, heven rfl⟩

/-! ## What ended a step -/

/-- A host turn while waiting writes the awaited register and `WAIT` at most, and ends the host's turn. -/
theorem waitTurn_frame {s : State} {x : Nibble} (hw : s.wait = .awaitingKey x) : ∃ v w, waitTurn s =
    { s with v := v, wait := w, hostScript := s.hostScript.tail, hostClock := s.hostClock + 1 } := by
  rw [waitTurn_eq hw]
  cases s.hostTurn.edge with
  | none => exact ⟨s.v, s.wait, rfl⟩
  | some k => exact ⟨(s.writeV x (k.setWidth 8)).v, .running, rfl⟩

/-- A step that ends with `HALT` set was a faulting cycle. -/
theorem step_faulted {s s' : State} {f : FaultRecord} (h : step s = .next s') (hf : s'.halt = some f) :
    s.halt = none ∧ s.wait = .running ∧ CycleCase s s' ∧ s' = s.enterFault f := by
  obtain ⟨hhalt, ⟨hrun, hcycle⟩ | ⟨x, hwait, rfl⟩⟩ := step_cases h
  · refine ⟨hhalt, hrun, hcycle, ?_⟩
    obtain ⟨g, rfl⟩ | ⟨i, t, -, -, ht, rfl⟩ := hcycle.enterFault_or_endCycle
    · rw [Option.some.inj hf]
    · rw [State.endCycle_halt, ht] at hf
      cases hf
  · obtain ⟨v, w, heq⟩ := waitTurn_frame hwait
    rw [heq] at hf
    cases hhalt.symm.trans hf

/-- A step from Running that ends with `HALT` none was a completed cycle: the handler of the word at PC raised nothing. -/
theorem step_completed {s s' : State} (h : step s = .next s') (hrun : s.wait = .running) (hdone : s'.halt = none) :
    ∃ i t, s.ReadyToFetch ∧ decode s.nextWord = .ok i ∧ exec i s.entry = .next t ∧ t.halt = none ∧ s' = t.endCycle := by
  obtain ⟨hhalt, ⟨-, hcycle⟩ | ⟨x, hwait, -⟩⟩ := step_cases h
  · cases hcycle with
    | fetchFault _ _ result | unrecognized _ _ _ result | raised _ _ _ _ _ result => rw [result] at hdone; cases hdone
    | completed check i word t handler running result =>
      exact ⟨i, t, readyToFetch_of_check hhalt hrun check, word, handler, running, result⟩
  · cases hrun.symm.trans hwait

/-- A step of a waiting core is its host turn, and leaves `HALT` none. -/
theorem step_waited {s s' : State} {x : Nibble} (h : step s = .next s') (hw : s.wait = .awaitingKey x) :
    s' = waitTurn s ∧ s'.halt = none := by
  obtain ⟨hhalt, ⟨hrun, -⟩ | ⟨y, hwait, rfl⟩⟩ := step_cases h
  · cases hrun.symm.trans hw
  · obtain ⟨v, w, heq⟩ := waitTurn_frame hwait
    exact ⟨rfl, by rw [heq]; exact hhalt⟩

/-! ## The cycle as one function -/

theorem tick_eq_ofNat (b : Byte) : tick b = BitVec.ofNat 8 (b.toNat - 1) := by
  apply BitVec.eq_of_toNat_eq
  rw [toNat_tick, BitVec.toNat_ofNat]
  have := b.isLt
  exact (Nat.mod_eq_of_lt (by omega)).symm

theorem tick_pos_iff (b : Byte) : (tick b).toNat > 0 ↔ b.toNat > 1 := by
  rw [toNat_tick]
  omega

/-- The end of a cycle, written out (60_exceptions.md R255, R257). -/
theorem State.endCycle_eq (t : State) : t.endCycle =
    { t with
      dt := BitVec.ofNat 8 (t.dt.toNat - 1), st := BitVec.ofNat 8 (t.st.toNat - 1), tone := decide (t.st.toNat > 1)
      hostScript := t.hostScript.tail, hostClock := t.hostClock + 1 } := by
  rw [← tick_eq_ofNat, ← tick_eq_ofNat, ← decide_eq_decide.mpr (tick_pos_iff t.st)]
  rfl

/-- Settles O9: a completed cycle ends with the tick, a faulting one with the record alone. -/
theorem stepRunsTheDecodedInstruction : Obligations.StepRunsTheDecodedInstruction := by
  refine fun s i hready hword => ⟨fun t hexec ht => ?_, fun t f hexec hf => hready.step_faults hword hexec hf⟩
  rw [← State.endCycle_eq]
  exact hready.step_completes hword hexec ht

/-! ## Stops -/

/-- Settles O13: a core that has not faulted has a next state by its cycle or its host turn; one that
has answers `halted`. -/
theorem onlyAHaltedCoreStops : Obligations.OnlyAHaltedCoreStops := by
  have hhalted : ∀ (s : State) (f : FaultRecord), s.halt = some f → step s = .fault (.halted f) := by
    intro s f hf
    simp [step, turn, hf]
  have hnext : ∀ s : State, s.halt = none → ∃ t, step s = .next t := by
    intro s hnone
    cases hw : s.wait with
    | running =>
      obtain ⟨t, ht, -⟩ := cycle_cases hnone
      exact ⟨t, (step_running hnone hw).trans ht⟩
    | awaitingKey x => exact ⟨_, step_waiting hnone hw⟩
  refine ⟨fun s => ⟨fun ⟨t, ht⟩ => (step_cases ht).1, hnext s⟩, hhalted, fun s r hr => ?_, fun i s => ?_⟩
  · cases hh : s.halt with
    | none =>
      obtain ⟨t, ht⟩ := hnext s hh
      cases ht.symm.trans hr
    | some f => cases (hhalted s f hh).symm.trans hr
  · obtain ⟨kind, hraise⟩ | ⟨t, ht, -⟩ := exec_cases i s
    · exact ⟨_, hraise⟩
    · exact ⟨t, ht⟩

/-! ## Faults -/

/-- Settles O14: only fault entry sets `HALT`, and it keeps every other field of the state the cycle started in. -/
theorem faultsArePrecise : Obligations.FaultsArePrecise := by
  intro s s' hstep hne
  obtain ⟨f, hf⟩ := Option.ne_none_iff_exists'.mp hne
  obtain ⟨-, -, -, rfl⟩ := step_faulted hstep hf
  rfl

theorem fetchCheck_of_above {p : Config.OddFetch} {pc : Word} (h : 0xFFE < pc.toNat) :
    fetchCheck p pc = some (.outOfRangeAddress .fetch pc.toNat) :=
  if_pos h

theorem fetchCheck_of_odd {pc : Word} (hrange : pc.toNat ≤ 0xFFE) (hodd : pc.toNat % 2 = 1) :
    fetchCheck .fault pc = some .misalignedFetch := by
  rw [fetchCheck, if_neg (by omega), if_pos ⟨hodd, rfl⟩]

/-- Settles O11: from what the fetch checks find at each PC. -/
theorem fetchChecksComeFirstAndInOrder : Obligations.FetchChecksComeFirstAndInOrder :=
  ⟨fun _ hhalt hrun habove => step_fetchFault hhalt hrun (fetchCheck_of_above habove),
    fun _ hhalt hrun hrange hodd => step_fetchFault hhalt hrun (fetchCheck_of_odd hrange hodd),
    fun _ hrange => fetchCheck_eq_none.mpr ⟨hrange, fun h => nomatch h⟩⟩

/-- No step follows a fault. -/
theorem step_halted_ne_next (s : State) (kind : FaultKind) (word : Option Word) (t : State) :
    step (s.halted kind word) ≠ .next t :=
  step_ne_next_of_halt rfl t

/-- Settles O12: the decoder rejects exactly the words no entry matches, the listed ones among them. -/
theorem unrecognizedWordIsFatal : Obligations.UnrecognizedWordIsFatal := by
  refine ⟨fun s hready hnone => ⟨?_, step_halted_ne_next s _ _⟩, fun w htop hcls hret => ?_⟩
  · exact hready.step_unrecognized (decode_eq_error_iff.mpr hnone)
  · exact decode_eq_error_iff.mp ((illegalWordsAreExactly w).mpr (.inl ⟨htop, hcls, hret⟩))

/-- What a handler that leaves `HALT` set raised. -/
theorem HandlerCase.raised_of_halt {i : Instr} {s t : State} {f : FaultRecord} (h : HandlerCase s i t)
    (hs : s.halt = none) (hf : t.halt = some f) : ∃ kind, FaultCause s i kind ∧ t = s.raised (encode i) kind := by
  cases h with
  | raised cause => exact ⟨_, cause, rfl⟩
  | _ => cases hs.symm.trans hf

/-- A raise has a cause. -/
theorem FaultCause.of_raise {i : Instr} {s : State} {kind : FaultKind} (hs : s.halt = none)
    (h : exec i s = raise (encode i) kind s) : FaultCause s i kind := by
  obtain ⟨kind', hcause, heq⟩ := (handlerCase_of_exec h).raised_of_halt hs rfl
  have hhalt := Option.some.inj (congrArg State.halt heq)
  obtain rfl : kind = kind' := congrArg FaultRecord.kind hhalt
  exact hcause

/-- The record of a failed fetch. -/
theorem explained_of_fetchCheck {s : State} {kind : FaultKind} (h : fetchCheck oddFetch s.pc = some kind) :
    FaultRecord.Explained ⟨kind, some s.pc, none⟩ s := by
  by_cases habove : 0xFFE < s.pc.toNat
  · rw [fetchCheck_of_above habove] at h
    cases h
    exact ⟨rfl, rfl, rfl, habove⟩
  · have hodd : s.pc.toNat % 2 = 1 := by
      by_contra heven
      have hpass : fetchCheck oddFetch s.pc = none := fetchCheck_eq_none.mpr ⟨by omega, fun _ => by omega⟩
      cases hpass.symm.trans h
    rw [oddFetch, fetchCheck_of_odd (by omega) hodd] at h
    cases h
    exact ⟨rfl, rfl, hodd, by omega⟩

/-- The record of a handler's raise. -/
theorem explained_of_cause {s : State} {i : Instr} {kind : FaultKind} (hword : decode s.nextWord = .ok i)
    (h : FaultCause s.entry i kind) : FaultRecord.Explained ⟨kind, some s.pc, some s.nextWord⟩ s := by
  refine ⟨rfl, ?_⟩
  cases h with
  | overflow nnn full => exact ⟨rfl, full, nnn, hword⟩
  | underflow x empty => exact ⟨rfl, empty, x, hword⟩
  | key x instr above =>
    refine ⟨rfl, above, x, rfl, ?_⟩
    obtain rfl | rfl := instr
    exacts [.inl hword, .inr hword]
  | read instr k offset above =>
    refine ⟨rfl, above, Nat.le_add_right _ _, Nat.add_le_add_left offset _, ?_⟩
    obtain ⟨x, y, n, rfl⟩ | ⟨x, rfl⟩ := instr
    exacts [.inl ⟨x, y, n, hword⟩, .inr ⟨x, hword⟩]
  | write instr k offset above =>
    refine ⟨rfl, above, Nat.le_add_right _ _, Nat.add_le_add_left offset _, ?_⟩
    obtain ⟨x, rfl⟩ | ⟨x, rfl⟩ := instr
    exacts [.inl ⟨x, hword⟩, .inr ⟨x, hword⟩]
  | font instr k offset inFont =>
    refine ⟨rfl, inFont, Nat.le_add_right _ _, Nat.add_le_add_left offset _, ?_⟩
    obtain ⟨x, rfl⟩ | ⟨x, rfl⟩ := instr
    exacts [.inl ⟨x, hword⟩, .inr ⟨x, hword⟩]

/-- The record a faulting cycle leaves is explained by the state it started in. -/
theorem CycleCase.explained {s s' : State} {f : FaultRecord} (h : CycleCase s s') (hs : s.halt = none)
    (hf : s'.halt = some f) : f.Explained s := by
  cases h with
  | fetchFault kind check result =>
    subst result
    cases hf
    exact explained_of_fetchCheck check
  | unrecognized check r word result =>
    subst result
    cases hf
    obtain rfl := decode_error word
    exact ⟨rfl, rfl, decode_eq_error_iff.mp word⟩
  | raised check i word kind handler result =>
    subst result
    cases hf
    rw [encodeOfDecodeIsTheWord _ i word]
    exact explained_of_cause word (.of_raise hs handler)
  | completed _ _ _ t _ running result =>
    rw [result, State.endCycle_halt, running] at hf
    cases hf

/-- Settles O15: by the way the faulting cycle ended. -/
theorem faultRecordsAreExplained : Obligations.FaultRecordsAreExplained := by
  intro s s' f hstep hf
  obtain ⟨hhalt, -, hcycle, -⟩ := step_faulted hstep hf
  exact hcycle.explained hhalt hf

end Sys2Proof.Machine
end

section
/-! PROOF. Who writes what (10_state.md, 20_memory.md sections 5 and 6): the frame of every handler, field by field. -/

namespace Sys2Proof.Machine

/-! ## Registers -/

/-- A handler leaves a register as it was, unless it is the destination, the flag of an instruction that has one, or one of
those an FX65 loads. -/
theorem HandlerCase.readV {i : Instr} {s t : State} (h : HandlerCase s i t) (r : Nibble) :
    t.readV r = s.readV r ∨ i.HasDestination r ∨ r = 0xF ∧ i.WritesFlag ∨ ∃ x, i = .ldVxMem x ∧ r.toNat ≤ x.toNat := by
  cases h with
  | register x dest b =>
    by_cases hr : r = x
    · exact .inr (.inl (hr ▸ dest))
    · exact .inl (by rw [State.readV_writeV, if_neg hr])
  | resultFlag x dest flags b flag =>
    by_cases hF : r = 0xF
    · exact .inr (.inr (.inl ⟨hF, flags⟩))
    · by_cases hr : r = x
      · exact .inr (.inl (hr ▸ dest))
      · exact .inl (by rw [State.writeResultFlag, State.readV_writeV, if_neg hF, State.readV_writeV, if_neg hr])
  | registers x bs length =>
    by_cases hr : r.toNat ≤ x.toNat
    · exact .inr (.inr (.inr ⟨x, rfl, hr⟩))
    · have hx : x.toNat < 16 := x.isLt
      refine .inl ((State.readV_loadRegisters bs r 0 s (by omega)).trans (dif_neg ?_))
      omega
  | indexFlag x a flag =>
    by_cases hF : r = 0xF
    · exact .inr (.inr (.inl ⟨hF, x, 0, 0, by simp⟩))
    · exact .inl (by rw [State.readV_writeV, if_neg hF, State.readV_setI])
  | draw x y n flag d =>
    by_cases hF : r = 0xF
    · exact .inr (.inr (.inl ⟨hF, x, y, n, by simp⟩))
    · exact .inl (by rw [State.readV_redraw, State.readV_writeV, if_neg hF])
  | _ => exact .inl rfl

/-- An FX65 that loads VF has x = F, so VF is its destination. -/
theorem hasDestination_flag_of_load {x : Nibble} (h : (0xF : Nibble).toNat ≤ x.toNat) :
    (Instr.ldVxMem x).HasDestination 0xF := by
  have hx : x.toNat < 16 := x.isLt
  obtain rfl : x = 0xF := BitVec.eq_of_toNat_eq (by simp at h ⊢; omega)
  exact ⟨0, 0, by simp⟩

/-- Settles O23: from the register frame of every handler. -/
theorem onlyDestinationsAndFlagsAreWritten : Obligations.OnlyDestinationsAndFlagsAreWritten := by
  refine ⟨fun i s t hexec hne => ?_, fun i s t r hexec hr hne => ?_⟩
  · obtain hsame | hdest | ⟨-, hflag⟩ | ⟨x, rfl, hx⟩ := (handlerCase_of_exec hexec).readV 0xF
    · exact absurd hsame hne
    · exact .inr hdest
    · exact .inl hflag
    · exact .inr (hasDestination_flag_of_load hx)
  · obtain hsame | hdest | ⟨hF, -⟩ | hload := (handlerCase_of_exec hexec).readV r
    · exact absurd hsame hne
    · exact .inl hdest
    · exact absurd hF hr
    · exact .inr hload

/-! ## Memory -/

/-- The address is one of those an FX33 or an FX55 stores to (20_memory.md section 5). -/
def State.StoresTo (s : State) (i : Instr) (a : Nat) : Prop :=
  (∃ x, i = .ldBVx x ∧ s.dataBase ≤ a ∧ a < s.dataBase + 3) ∨
    ∃ x, i = .ldMemVx x ∧ s.dataBase ≤ a ∧ a < s.dataBase + (x.toNat + 1)

/-- A handler leaves a byte as it was, unless it stores to it, and then the byte is outside the font table. -/
theorem HandlerCase.readMem {i : Instr} {s t : State} (h : HandlerCase s i t) (hm : s.mem.wf) (a : Nat) :
    t.readMem a = s.readMem a ∨ s.StoresTo i a ∧ 0x04F < a := by
  cases h with
  | store bs instr range =>
    by_cases ha : s.dataBase ≤ a ∧ a < s.dataBase + bs.length
    · obtain ⟨hlow, hhigh⟩ := ha
      refine .inr ⟨?_, ?_⟩
      · obtain ⟨x, rfl, hlen⟩ | ⟨x, rfl, hlen⟩ := instr <;> rw [hlen] at hhigh
        exacts [.inl ⟨x, rfl, hlow, hhigh⟩, .inr ⟨x, rfl, hlow, hhigh⟩]
      · obtain ⟨habove, -⟩ := range (a - s.dataBase) (by omega)
        omega
    · exact .inl ((Memory.read_store bs a s.mem s.dataBase hm.1).trans (dif_neg ha))
  | _ => exact .inl rfl

/-- Settles O24: from the memory frame of every handler. -/
theorem onlyStoresChangeMemory : Obligations.OnlyStoresChangeMemory := by
  intro i s t a hm hexec hne
  obtain hsame | ⟨hstores, -⟩ := (handlerCase_of_exec hexec).readMem hm a
  · exact absurd hsame hne
  · exact hstores

/-- Settles O25: no handler stores below 0x050, and nothing outside the handlers writes memory. -/
theorem fontTableIsNeverWritten : Obligations.FontTableIsNeverWritten := by
  refine ⟨fun s s' a hm hstep ha => ?_, fun a ha => writeCheck_eq_none.mpr ⟨ha, fun h => nomatch h⟩⟩
  obtain ⟨-, ⟨-, hcycle⟩ | ⟨x, hwait, rfl⟩⟩ := step_cases hstep
  · obtain ⟨f, rfl⟩ | ⟨i, t, -, hexec, -, rfl⟩ := hcycle.enterFault_or_endCycle
    · rfl
    · obtain hsame | ⟨-, habove⟩ := (handlerCase_of_exec hexec).readMem hm a
      · exact hsame
      · omega
  · obtain ⟨v, w, heq⟩ := waitTurn_frame hwait
    rw [heq]
    rfl

/-! ## The display -/

theorem HandlerCase.display_eq {i : Instr} {s t : State} (h : HandlerCase s i t) (hi : ¬ i.Draws) :
    t.disp = s.disp ∧ t.displayChanged = s.displayChanged := by
  cases h with
  | clear x => exact absurd (.inr ⟨x, rfl⟩) hi
  | draw x y n _ _ => exact absurd (.inl ⟨x, y, n, rfl⟩) hi
  | _ => exact ⟨rfl, rfl⟩

/-- A DXYN or 00E0 that raises nothing sets the strobe (44_display.md R193). -/
theorem displayChanged_of_draws {i : Instr} {s t : State} (hi : i.Draws) (h : exec i s = .next t)
    (ht : t.halt = none) : t.displayChanged = true := by
  obtain ⟨x, y, n, rfl⟩ | ⟨x, rfl⟩ := hi
  · obtain ⟨kind, -, rfl⟩ | ⟨-, rfl⟩ := guarded_inv h
    · cases ht
    · rfl
  · cases h
    rfl

/-- Settles O22: outside the handlers nothing writes the display, and of the handlers only those two. -/
theorem onlyDrawAndClearChangeTheDisplay : Obligations.OnlyDrawAndClearChangeTheDisplay := by
  intro s s' hstep hne
  obtain ⟨-, ⟨hrun, hcycle⟩ | ⟨x, hwait, rfl⟩⟩ := step_cases hstep
  · obtain ⟨f, rfl⟩ | ⟨i, t, hword, hexec, -, rfl⟩ := hcycle.enterFault_or_endCycle
    · exact absurd rfl hne
    · refine ⟨hrun, i, hword, ?_⟩
      by_contra hi
      exact hne ((handlerCase_of_exec hexec).display_eq hi).1
  · obtain ⟨v, w, heq⟩ := waitTurn_frame hwait
    rw [heq] at hne
    exact absurd rfl hne

/-! ## The other registers -/

theorem HandlerCase.i_eq {i : Instr} {s t : State} (h : HandlerCase s i t) :
    t.i = s.i ∨ (∃ nnn, i = .ldI nnn) ∨ (∃ x, i = .addIVx x) ∨ ∃ x, i = .ldFVx x := by
  cases h with
  | index instr a =>
    obtain hld | hglyph := instr
    exacts [.inr (.inl hld), .inr (.inr (.inr hglyph))]
  | indexFlag x a flag => exact .inr (.inr (.inl ⟨x, rfl⟩))
  | _ => exact .inl rfl

theorem HandlerCase.dt_eq {i : Instr} {s t : State} (h : HandlerCase s i t) : t.dt = s.dt ∨ ∃ x, i = .ldDtVx x := by
  cases h with
  | delayTimer x b => exact .inr ⟨x, rfl⟩
  | _ => exact .inl rfl

theorem HandlerCase.st_eq {i : Instr} {s t : State} (h : HandlerCase s i t) : t.st = s.st ∨ ∃ x, i = .ldStVx x := by
  cases h with
  | soundTimer x b => exact .inr ⟨x, rfl⟩
  | _ => exact .inl rfl

theorem HandlerCase.sp_eq {i : Instr} {s t : State} (h : HandlerCase s i t) :
    t.sp = s.sp ∨ (∃ nnn, i = .call nnn) ∨ ∃ x, i = .ret x := by
  cases h with
  | call nnn free => exact .inr (.inl ⟨nnn, rfl⟩)
  | ret x used => exact .inr (.inr ⟨x, rfl⟩)
  | _ => exact .inl rfl

theorem HandlerCase.stack_eq {i : Instr} {s t : State} (h : HandlerCase s i t) :
    t.stack = s.stack ∨ ∃ nnn, i = .call nnn := by
  cases h with
  | call nnn free => exact .inr ⟨nnn, rfl⟩
  | _ => exact .inl rfl

theorem HandlerCase.wait_eq {i : Instr} {s t : State} (h : HandlerCase s i t) : t.wait = s.wait ∨ ∃ x, i = .ldVxK x := by
  cases h with
  | keyWait x => exact .inr ⟨x, rfl⟩
  | _ => exact .inl rfl

/-- No handler writes what the host's side of a cycle supplies or evaluates. -/
theorem HandlerCase.host_eq {i : Instr} {s t : State} (h : HandlerCase s i t) :
    t.keys = s.keys ∧ t.tone = s.tone ∧ t.hostScript = s.hostScript ∧ t.hostClock = s.hostClock := by
  cases h <;> exact ⟨rfl, rfl, rfl, rfl⟩

/-- Settles O26: from the frame of every handler, field by field. -/
theorem specialRegistersHaveTheirOwnWriters : Obligations.SpecialRegistersHaveTheirOwnWriters := by
  intro i s t hexec
  have h : HandlerCase s i t := handlerCase_of_exec hexec
  obtain ⟨hkeys, htone, -, -⟩ := h.host_eq
  exact ⟨h.i_eq.resolve_left, h.dt_eq.resolve_left, h.st_eq.resolve_left, h.sp_eq.resolve_left, h.stack_eq.resolve_left,
    h.wait_eq.resolve_left, hkeys, htone⟩

end Sys2Proof.Machine
end

section
/-! PROOF. The host's side of a step (40_step_engine.md sections 2 and 4, 45_input_timers.md section 3): keys, edges and
outputs. -/

namespace Sys2Proof.Machine

/-! ## Outputs -/

/-- Settles O17: the strobe is cleared before the handler, and the handlers that set it are those of DXYN and 00E0. -/
theorem outputsOfACompletedCycle : Obligations.OutputsOfACompletedCycle := by
  intro s s' i hstep hrun hword hdone
  obtain ⟨j, t, -, hj, hexec, ht, rfl⟩ := step_completed hstep hrun hdone
  obtain rfl : j = i := Except.ok.inj (hj.symm.trans hword)
  rw [State.presented_of_completed hrun hdone]
  refine ⟨fun hi => if_pos (displayChanged_of_draws hi hexec ht), fun hi => if_neg ?_, rfl⟩
  obtain ⟨-, hstrobe⟩ := (handlerCase_of_exec hexec).display_eq hi
  rw [State.endCycle_displayChanged, hstrobe]
  exact Bool.false_ne_true

/-- Settles O60: fault entry and a host turn while waiting keep the tone, and neither is a completed cycle. -/
theorem onlyCompletedCyclesProduceOutput : Obligations.OnlyCompletedCyclesProduceOutput := by
  refine fun s s' hstep => ⟨fun f hf => ?_, fun x hwait => ?_⟩
  · obtain ⟨-, -, -, rfl⟩ := step_faulted hstep hf
    exact ⟨State.presented_of_halt hf, rfl, State.exitStatus_of_halt hf⟩
  · obtain ⟨rfl, hnone⟩ := step_waited hstep hwait
    obtain ⟨v, w, heq⟩ := waitTurn_frame hwait
    exact ⟨State.presented_of_waiting hwait, by rw [heq]; rfl, State.exitStatus_of_not_halted hnone⟩

/-! ## Keys -/

theorem advance_advance (pc : Word) : pc + 2 + 2 = pc + 4 := BitVec.add_assoc ..

/-- A key skip that raises nothing skips by the sample. -/
theorem exec_skp_inv {x : Nibble} {s t : State} (h : exec (.skp x) s = .next t) (ht : t.halt = none) :
    t = s.skipIf (s.keyDown (s.readV x)) := by
  obtain ⟨kind, -, rfl⟩ | ⟨-, rfl⟩ := guarded_inv h
  · cases ht
  · rfl

theorem exec_sknp_inv {x : Nibble} {s t : State} (h : exec (.sknp x) s = .next t) (ht : t.halt = none) :
    t = s.skipIf (!s.keyDown (s.readV x)) := by
  obtain ⟨kind, -, rfl⟩ | ⟨-, rfl⟩ := guarded_inv h
  · cases ht
  · rfl

/-- Settles O18: the sample is taken before the handler, which reads it and does not write it. -/
theorem keysAreSampledEachCycle : Obligations.KeysAreSampledEachCycle := by
  intro s s' hstep
  refine ⟨fun hrun hdone => ?_, fun hne => ?_, fun x hwait => ?_, fun x hrun hdone hword => ?_,
    fun x hrun hdone hword => ?_⟩
  · obtain ⟨i, t, -, -, hexec, -, rfl⟩ := step_completed hstep hrun hdone
    exact (handlerCase_of_exec hexec).host_eq.1
  · obtain ⟨f, hf⟩ := Option.ne_none_iff_exists'.mp hne
    obtain ⟨-, -, -, rfl⟩ := step_faulted hstep hf
    rfl
  · obtain ⟨rfl, -⟩ := step_waited hstep hwait
    obtain ⟨v, w, heq⟩ := waitTurn_frame hwait
    rw [heq]
  · obtain ⟨i, t, -, hi, hexec, ht, rfl⟩ := step_completed hstep hrun hdone
    obtain rfl : i = .skp x := Except.ok.inj (hi.symm.trans hword)
    rw [exec_skp_inv hexec ht, ← advance_advance]
    rfl
  · obtain ⟨i, t, -, hi, hexec, ht, rfl⟩ := step_completed hstep hrun hdone
    obtain rfl : i = .sknp x := Except.ok.inj (hi.symm.trans hword)
    rw [exec_sknp_inv hexec ht, ← advance_advance]
    change (if (!s.hostTurn.keys.getLsbD (s.readV x).toNat) = true then s.pc + 2 + 2 else s.pc + 2) = _
    cases s.hostTurn.keys.getLsbD (s.readV x).toNat <;> rfl

/-! ## Edges -/

/-- Settles O19: the edge's write and the end of the wait, or the end of the host's turn alone. -/
theorem aWaitEndsByItsEdgeAlone : Obligations.AWaitEndsByItsEdgeAlone := by
  refine ⟨fun s x k ⟨hhalt, hwait⟩ hedge => ?_, fun s x ⟨hhalt, hwait⟩ hedge => ?_⟩
  · refine ⟨_, step_waiting hhalt hwait, ?_⟩
    rw [waitTurn_eq hwait, hedge]
    refine ⟨fun r => ?_, rfl, rfl⟩
    rw [BitVec.ofNat_toNat]
    exact State.readV_writeV s x r _
  · rw [step_waiting hhalt hwait, waitTurn_eq hwait, hedge]
    rfl

/-- A register load does not look at the host's script. -/
theorem loadRegisters_hostScript (script : List HostTurn) (bs : List Byte) : ∀ (k : Nat) (s : State),
    ({ s with hostScript := script } : State).loadRegisters k bs = { s.loadRegisters k bs with hostScript := script } := by
  induction bs with
  | nil => intro k s; rfl
  | cons b bs ih => intro k s; exact ih (k + 1) (s.writeV _ b)

theorem guarded_hostScript {w : Word} {check : Option FaultKind} {s effect t : State} (script : List HostTurn)
    (h : guarded w check s effect = .next t) :
    guarded w check { s with hostScript := script } { effect with hostScript := script } =
      .next { t with hostScript := script } := by
  obtain ⟨kind, rfl, rfl⟩ | ⟨rfl, rfl⟩ := guarded_inv h <;> rfl

/-- Of the host's script a handler reads the random byte of the coming turn alone. -/
theorem exec_hostScript {i : Instr} {s t : State} {script : List HostTurn}
    (hrandom : ({ s with hostScript := script } : State).hostTurn.random = s.hostTurn.random) (h : exec i s = .next t) :
    exec i { s with hostScript := script } = .next { t with hostScript := script } := by
  cases i with
  | rnd x kk =>
    cases h
    simp only [exec, execRnd, hrandom]
    rfl
  | ret x =>
    simp only [exec, execRet] at h ⊢
    split at h <;> cases h
    · rename_i used; exact dif_pos used
    · rename_i empty; exact dif_neg empty
  | call nnn =>
    simp only [exec, execCall] at h ⊢
    split at h <;> cases h
    · rename_i free; exact dif_pos free
    · rename_i full; exact dif_neg full
  | drw | skp | sknp | ldBVx | ldMemVx => exact guarded_hostScript script h
  | ldVxMem x =>
    simp only [exec, execLdVxMem, loadRegisters_hostScript]
    exact guarded_hostScript script h
  | _ => cases h; rfl

/-- Settles O20: the cycle reads the keys and the random byte of its turn, and drops the turn at its end. -/
theorem edgesWhileRunningAreDropped : Obligations.EdgesWhileRunningAreDropped := by
  refine ⟨fun s k hrun => by simp [State.keyEdge, hrun], fun s t keys r e e' rest hrun hstep hdone => ?_⟩
  obtain ⟨i, u, hready, hword, hexec, hu, rfl⟩ := step_completed hstep hrun hdone
  have hexec' := exec_hostScript (script := ⟨keys, r, e'⟩ :: rest) rfl hexec
  obtain ⟨-, -, hscript, -⟩ := (handlerCase_of_exec hexec).host_eq
  have hend : ({ u with hostScript := ⟨keys, r, e'⟩ :: rest } : State).endCycle = u.endCycle := by
    simp [State.endCycle, State.endTurn, hscript, State.entry]
  rw [← hend]
  exact State.ReadyToFetch.step_completes hready hword hexec' hu

end Sys2Proof.Machine
end

section
/-! PROOF. Control flow (41_control_flow.md): jumps, skips, calls and returns, and the jump to itself. -/

namespace Sys2Proof

/-- The row of the dispatch table at a place, counted from 0 in the order of R78, as an encoding. -/
theorem encodedBy_row (k : Nat) (hk : k < dispatchTable.length) :
    Machine.EncodedBy dispatchTable[k].mask dispatchTable[k].pattern dispatchTable[k].build :=
  encodedBy_of_mem (List.getElem_mem hk)

end Sys2Proof

namespace Sys2Proof.Machine

/-! ## Skips -/

theorem State.skipIf_eq (s : State) (c : Bool) : s.skipIf c = { s with pc := if c then s.pc + 2 else s.pc } := rfl

theorem State.skipIf_not (s : State) (c : Bool) : s.skipIf (!c) = { s with pc := if c then s.pc else s.pc + 2 } := by
  cases c <;> rfl

theorem State.skipIf_beq (s : State) (a b : Byte) :
    s.skipIf (a == b) = { s with pc := if a = b then s.pc + 2 else s.pc } := by
  simp [State.skipIf_eq]

theorem State.skipIf_bne (s : State) (a b : Byte) :
    s.skipIf (a != b) = { s with pc := if a = b then s.pc else s.pc + 2 } := by
  rw [bne, State.skipIf_not]
  simp

theorem exec_seImm (x : Nibble) (kk : Byte) (s : State) : exec (.seImm x kk) s = .next (s.skipIf (s.readV x == kk)) := rfl

theorem exec_sneImm (x : Nibble) (kk : Byte) (s : State) : exec (.sneImm x kk) s = .next (s.skipIf (s.readV x != kk)) := rfl

theorem exec_seReg (x y n : Nibble) (s : State) : exec (.seReg x y n) s = .next (s.skipIf (s.readV x == s.readV y)) := rfl

theorem exec_sneReg (x y n : Nibble) (s : State) : exec (.sneReg x y n) s = .next (s.skipIf (s.readV x != s.readV y)) := rfl

/-- A skip over the last address a fetch can read. -/
theorem fetchCheck_skip_above {pc : Word} (hlow : 0xFFE ≤ pc.toNat) (hhigh : pc.toNat ≤ 0x1000) :
    fetchCheck oddFetch (pc + 2) = some (.outOfRangeAddress .fetch (pc.toNat + 2)) := by
  have hpc : (pc + 2).toNat = pc.toNat + 2 := toNat_advance hhigh
  rw [fetchCheck_of_above (by omega), hpc]

/-- Settles O34: the two encodings by their rows, the effects from the skip. -/
theorem immediateSkips : Obligations.ImmediateSkips := by
  refine ⟨encodedBy_row 4 (by decide), encodedBy_row 5 (by decide), fun x kk s => ⟨?_, ?_, fetchCheck_skip_above⟩⟩
  · rw [exec_seImm, State.skipIf_beq]
  · rw [exec_sneImm, State.skipIf_bne]

/-- Settles O35: the two encodings by their rows, the effects from the skip. -/
theorem registerSkips : Obligations.RegisterSkips := by
  refine ⟨encodedBy_row 6 (by decide), encodedBy_row 18 (by decide), fun x y n s => ⟨?_, ?_⟩⟩
  · rw [exec_seReg, State.skipIf_beq]
  · rw [exec_sneReg, State.skipIf_bne]

/-! ## Jumps -/

/-- NNN + V0 never wraps: it is at most 0x10FE. -/
theorem toNat_indexedTarget (s : State) (nnn : Imm12) : (s.indexedTarget nnn).toNat = nnn.toNat + (s.readV 0x0).toNat := by
  have hn : nnn.toNat < 4096 := nnn.isLt
  have hv : (s.readV 0x0).toNat < 256 := (s.readV 0x0).isLt
  rw [State.indexedTarget, BitVec.toNat_add, toNat_zext12, BitVec.toNat_setWidth_of_le (by decide)]
  exact Nat.mod_eq_of_lt (show _ < 65536 by omega)

/-- Settles O37: the encoding by its row, the target as an exact sum. -/
theorem indexedJumpAddsV0 : Obligations.IndexedJumpAddsV0 :=
  ⟨encodedBy_row 20 (by decide), fun nnn s =>
    ⟨s.setPc (s.indexedTarget nnn), rfl, toNat_indexedTarget s nnn, rfl, fetchCheck_of_above⟩⟩

/-! ## Calls and returns -/

theorem exec_call {s : State} (nnn : Imm12) (h : s.sp.val < 16) :
    exec (.call nnn) s = .next ((s.push s.pc h).setPc (zext12 nnn)) := dif_pos h

theorem exec_call_full {s : State} (nnn : Imm12) (h : s.sp.val = 16) :
    exec (.call nnn) s = raise (encode (.call nnn)) .stackOverflow s := dif_neg (by omega)

theorem exec_ret {s : State} (x : Nibble) (h : 0 < s.sp.val) : exec (.ret x) s = .next (s.pop h) := dif_pos h

theorem exec_ret_empty {s : State} (x : Nibble) (h : s.sp.val = 0) :
    exec (.ret x) s = raise (encode (.ret x)) .stackUnderflow s := dif_neg (by omega)

/-- The slots after a push. -/
theorem State.getElem_push_stack (s : State) (a : Word) (h : s.sp.val < 16) (j : Nat) (hj : j < 16) :
    (s.push a h).stack[j] = if j = s.sp.val then a else s.stack[j] := by
  simp [Vector.getElem_set, eq_comm]

/-- Settles O38: the encoding by its row, the effect from the push. -/
theorem callPushesTheReturnAddress : Obligations.CallPushesTheReturnAddress :=
  ⟨encodedBy_row 3 (by decide), fun nnn s h =>
    ⟨_, exec_call nnn h, zext12_eq_ofNat nnn, rfl, s.getElem_push_stack s.pc h, rfl⟩⟩

theorem State.pop_sp_val {s : State} (h : 0 < s.sp.val) : (s.pop h).sp.val = s.sp.val - 1 := rfl

/-- A pop takes PC from the slot below SP. -/
theorem State.pop_pc_of_sp {s : State} {k : Nat} (hk : k < 16) (hsp : s.sp.val = k + 1) (h : 0 < s.sp.val) :
    (s.pop h).pc = s.stack[k] := by
  simp [hsp]

/-- Settles O39: the encoding by its row, the effect from the pop. -/
theorem returnPopsIntoPC : Obligations.ReturnPopsIntoPC := by
  refine ⟨encodedBy_row 1 (by decide), fun x s k hk hsp => ?_⟩
  have hused : 0 < s.sp.val := by omega
  refine ⟨s.pop hused, exec_ret x hused, State.pop_pc_of_sp hk hsp hused, ?_, rfl⟩
  rw [State.pop_sp_val]
  omega

/-- Settles O40: the return pops the slot the call pushed to. -/
theorem callThenReturnResumesAfterTheCall : Obligations.CallThenReturnResumesAfterTheCall := by
  intro nnn x s t later hfree hcall hsp hslots
  obtain rfl := Host.Outcome.next.inj ((exec_call nnn hfree).symm.trans hcall)
  have hlater : later.sp.val = s.sp.val + 1 := congrArg Fin.val hsp
  have hused : 0 < later.sp.val := by omega
  refine ⟨later.pop hused, exec_ret x hused, ?_, ?_⟩
  · rw [State.pop_pc_of_sp hfree hlater hused, hslots s.sp.val hfree (Nat.lt_succ_self _)]
    exact (s.getElem_push_stack s.pc hfree s.sp.val hfree).trans (if_pos rfl)
  · apply Fin.ext
    rw [State.pop_sp_val]
    omega

/-- A cycle whose handler raises leaves the starting state with the kind and the fetched word recorded. -/
theorem State.ReadyToFetch.step_raises {s : State} {i : Instr} {kind : FaultKind} (h : s.ReadyToFetch)
    (hword : decode s.nextWord = .ok i) (hexec : exec i s.entry = raise (encode i) kind s.entry) :
    step s = .next (s.halted kind (some s.nextWord)) := by
  rw [encodeOfDecodeIsTheWord _ i hword] at hexec
  have hpc : s.entry.pc - 2 = s.pc := pc_retreat s.pc
  rw [h.step_faults hword hexec rfl, hpc]
  rfl

/-- Settles O41: a call with every slot in use and a return with none raise, and a halted core has no step. -/
theorem stackFaultsAreFatal : Obligations.StackFaultsAreFatal := by
  refine fun s hready => ⟨fun nnn hword hfull => ⟨?_, step_halted_ne_next s _ _⟩,
    fun x hword hempty => ⟨?_, step_halted_ne_next s _ _⟩⟩
  · exact hready.step_raises hword (exec_call_full nnn hfull)
  · exact hready.step_raises hword (exec_ret_empty x hempty)

/-! ## A jump to itself -/

theorem zext12_nnnOf {a : Word} (h : a.toNat < 4096) : zext12 (nnnOf a) = a := by
  apply BitVec.eq_of_toNat_eq
  rw [toNat_zext12, toNat_nnnOf, Nat.mod_eq_of_lt h]

/-- The word of a jump, as 40_step_engine.md section 3 writes it. -/
theorem or_zext12 (nnn : Imm12) : 0x1000 ||| zext12 nnn = encode (.jp nnn) := by
  apply BitVec.eq_of_getLsbD_eq
  intro i hi
  simp only [encode, packNNN, zext12, BitVec.getLsbD_or, BitVec.getLsbD_setWidth, BitVec.getLsbD_append]
  interval_cases i <;> simp

/-- A core spinning at `a` is ready to fetch the jump to `a`. -/
theorem State.SpinningAt.fetches {s : State} {a : Word} (h : s.SpinningAt a) :
    s.ReadyToFetch ∧ decode s.nextWord = .ok (.jp (nnnOf a)) ∧ zext12 (nnnOf a) = a := by
  obtain ⟨hhalt, hrun, hpc, heven, hrange, hword⟩ := h
  have hzext : zext12 (nnnOf a) = a := zext12_nnnOf (by omega)
  refine ⟨⟨hhalt, hrun, hpc ▸ hrange, hpc ▸ heven⟩, ?_, hzext⟩
  have hnext : s.nextWord = encode (.jp (nnnOf a)) := by
    rw [← or_zext12, hzext, ← hword, ← hpc]
    rfl
  rw [hnext, decode_encode]

/-- Settles O29: the cycle runs the jump to itself, which leaves PC and memory as they are. -/
theorem spinningChangesOnlyTimersAndKeys : Obligations.SpinningChangesOnlyTimersAndKeys := by
  intro s a h
  obtain ⟨hready, hword, hzext⟩ := h.fetches
  obtain ⟨hhalt, hrun, hpc, heven, hrange, hmem⟩ := h
  refine ⟨_, hready.step_completes hword (exec_jp _ _) hhalt, ⟨hhalt, hrun, hzext, heven, hrange, hmem⟩, ?_⟩
  rw [hzext, ← hpc]
  rfl

end Sys2Proof.Machine
end

section
/-! PROOF. Moves, the ALU, the index register and the random byte (42_alu.md, 43_index_random.md). -/

namespace Sys2Proof.Machine

/-! ## The shapes of an effect on registers -/

/-- One register written. -/
theorem registersBecome_writeV {s : State} {i : Instr} {x : Nibble} {b : Byte} (h : exec i s = .next (s.writeV x b)) :
    s.RegistersBecome i (fun r => if r = x then b else s.readV r) :=
  ⟨_, h, fun r => s.readV_writeV x r b, rfl⟩

/-- A result written, then a flag: the flag wins when x is F. -/
theorem registersBecome_writeResultFlag {s : State} {i : Instr} {x : Nibble} {b flag : Byte}
    (h : exec i s = .next (s.writeResultFlag x b flag)) :
    s.RegistersBecome i (fun r => if r = 0xF then flag else if r = x then b else s.readV r) := by
  refine ⟨_, h, fun r => ?_, rfl⟩
  rw [State.writeResultFlag, State.readV_writeV, State.readV_writeV]

/-- A register written with its own value. -/
theorem State.writeV_readV_self (s : State) (x : Nibble) : s.writeV x (s.readV x) = s := by
  have hset : s.v.set x.toNat (s.readV x) x.isLt = s.v := Vector.set_getElem_self ..
  rw [State.writeV, hset]

/-! ## Moves -/

/-- Settles O42: the encodings by their rows, each effect as one write. -/
theorem immediateMoveAndAdd : Obligations.ImmediateMoveAndAdd := by
  refine ⟨encodedBy_row 7 (by decide), encodedBy_row 8 (by decide), fun x kk s => ⟨registersBecome_writeV rfl, ?_⟩⟩
  rw [← BitVec.add_def]
  exact registersBecome_writeV rfl

/-- Settles O43: the encodings by their rows, each effect as one write; with x = y the idempotence of the operation. -/
theorem copyAndBitwiseLeaveVF : Obligations.CopyAndBitwiseLeaveVF := by
  refine ⟨encodedBy_row 9 (by decide), encodedBy_row 10 (by decide), encodedBy_row 11 (by decide),
    encodedBy_row 12 (by decide), fun x y s => ⟨registersBecome_writeV rfl, registersBecome_writeV rfl,
      registersBecome_writeV rfl, registersBecome_writeV rfl⟩, fun x s => ⟨?_, ?_, ?_, ?_⟩⟩
  · exact congrArg _ (s.writeV_readV_self x)
  · rw [exec, execOrReg, BitVec.or_self, State.writeV_readV_self]
  · rw [exec, execAndReg, BitVec.and_self, State.writeV_readV_self]
  · have hzero : (0x00 : Byte) = s.readV x ^^^ s.readV x := BitVec.xor_self.symm
    rw [hzero]
    exact registersBecome_writeV rfl

/-! ## Flags -/

theorem flagByte_decide (p : Prop) [Decidable p] : flagByte (decide p) = if p then 1 else 0 := by
  by_cases h : p <;> simp [flagByte, h]

theorem carryFlag_eq (a b : Byte) : carryFlag a b = if a.toNat + b.toNat > 0xFF then 1 else 0 := flagByte_decide _

theorem rangeFlag_eq (sum : Word) : rangeFlag sum = if 0xFFF < sum.toNat then 1 else 0 := flagByte_decide _

/-- The not-borrow with P_SUB_EQ_FLAG left open (decision D6). -/
theorem notBorrowFlag_eq (eqFlag : Bool) (a b : Byte) : notBorrowFlag eqFlag a b =
    if b.toNat < a.toNat then 1 else if a = b then (if eqFlag then 1 else 0) else 0 := by
  unfold notBorrowFlag
  by_cases hlt : b.toNat < a.toNat
  · simp [hlt, flagByte]
  · by_cases heq : a = b <;> simp [hlt, heq, flagByte]

/-- With P_SUB_EQ_FLAG = 1 the flag says that the difference does not borrow. -/
theorem notBorrowFlag_subEqFlag (a b : Byte) :
    notBorrowFlag subEqFlag a b = if b.toNat ≤ a.toNat then 1 else 0 := by
  rw [notBorrowFlag_eq]
  by_cases hlt : b.toNat < a.toNat
  · rw [if_pos hlt, if_pos hlt.le]
  · rw [if_neg hlt]
    by_cases heq : a = b
    · have hle : b.toNat ≤ a.toNat := by rw [heq]
      rw [if_pos heq, if_pos hle, subEqFlag, if_pos rfl]
    · have hne : a.toNat ≠ b.toNat := fun h => heq (BitVec.eq_of_toNat_eq h)
      rw [if_neg heq, if_neg (by omega)]

/-- A flag that is one bit of a byte. -/
theorem flagByte_bit (a : Byte) (k : Nat) : flagByte (a.getLsbD k) = BitVec.ofNat 8 (a.toNat / 2 ^ k % 2) := by
  rw [BitVec.getLsbD, Nat.testBit_eq_decide_div_mod_eq, flagByte_decide]
  obtain h | h := Nat.mod_two_eq_zero_or_one (a.toNat / 2 ^ k) <;> simp [h]

theorem shiftRightFlag_eq (a : Byte) : shiftRightFlag a = BitVec.ofNat 8 (a.toNat % 2) := by
  have hbit := flagByte_bit a 0
  rwa [pow_zero, Nat.div_one] at hbit

theorem shiftLeftFlag_eq (a : Byte) : shiftLeftFlag a = BitVec.ofNat 8 (a.toNat / 128) := by
  have ha : a.toNat < 256 := a.isLt
  have hbit : a.toNat / 2 ^ 7 % 2 = a.toNat / 128 := by omega
  rw [← hbit]
  exact flagByte_bit a 7

/-! ## Sums, differences and shifts -/

theorem sub_eq_ofNat (a b : Byte) : a - b = BitVec.ofNat 8 (a.toNat + 256 - b.toNat) := by
  have hb : b.toNat < 256 := b.isLt
  have hsum : a.toNat + 256 - b.toNat = 2 ^ 8 - b.toNat + a.toNat := by omega
  rw [hsum, BitVec.sub_def]

theorem shiftRight_eq_ofNat (a : Byte) : a >>> 1 = BitVec.ofNat 8 (a.toNat / 2) := by
  apply BitVec.eq_of_toNat_eq
  have ha : a.toNat < 256 := a.isLt
  rw [BitVec.toNat_ushiftRight, Nat.shiftRight_one, BitVec.toNat_ofNat]
  exact (Nat.mod_eq_of_lt (show _ < 256 by omega)).symm

theorem shiftLeft_eq_ofNat (a : Byte) : a <<< 1 = BitVec.ofNat 8 (2 * a.toNat) := by
  apply BitVec.eq_of_toNat_eq
  rw [BitVec.toNat_shiftLeft, BitVec.toNat_ofNat, Nat.shiftLeft_eq, pow_one, Nat.mul_comm]

/-- Settles O44: the encoding by its row, the effect as a result and a flag. -/
theorem addWithCarry : Obligations.AddWithCarry := by
  refine ⟨encodedBy_row 13 (by decide), fun x y s => ?_⟩
  rw [← BitVec.add_def, ← carryFlag_eq]
  exact registersBecome_writeResultFlag rfl

/-- Settles O45: the encodings by their rows, the effects as a result and a flag. -/
theorem subtractionsWithNotBorrow : Obligations.SubtractionsWithNotBorrow := by
  refine ⟨encodedBy_row 14 (by decide), encodedBy_row 16 (by decide), fun x y s => ⟨?_, ?_⟩, notBorrowFlag_eq⟩
  · rw [← sub_eq_ofNat, ← notBorrowFlag_subEqFlag]
    exact registersBecome_writeResultFlag rfl
  · rw [← sub_eq_ofNat, ← notBorrowFlag_subEqFlag]
    exact registersBecome_writeResultFlag rfl

/-- Settles O46: the encodings by their rows, the effects as a result and a flag. -/
theorem shiftsMoveOneBitIntoVF : Obligations.ShiftsMoveOneBitIntoVF := by
  refine ⟨encodedBy_row 15 (by decide), encodedBy_row 17 (by decide), fun x y s => ⟨?_, ?_⟩⟩
  · rw [← shiftRight_eq_ofNat, ← shiftRightFlag_eq]
    exact registersBecome_writeResultFlag rfl
  · rw [← shiftLeft_eq_ofNat, ← shiftLeftFlag_eq]
    exact registersBecome_writeResultFlag rfl

/-! ## Index and random byte -/

/-- Settles O47: the encoding by its row, the effect as one write to I. -/
theorem indexLoad : Obligations.IndexLoad := by
  refine ⟨encodedBy_row 19 (by decide), fun nnn s => ?_⟩
  rw [← zext12_eq_ofNat]
  refine ⟨rfl, ?_⟩
  rw [toNat_zext12]
  exact Nat.le_of_lt_succ nnn.isLt

theorem toNat_indexSum (s : State) (x : Nibble) : (s.indexSum x).toNat = (s.i.toNat + (s.readV x).toNat) % 65536 := by
  rw [State.indexSum, BitVec.toNat_add, BitVec.toNat_setWidth_of_le (by decide)]

theorem toNat_glyphAddress (b : Byte) : (glyphAddress b).toNat = 5 * b.toNat := by
  have hb : b.toNat < 256 := b.isLt
  rw [glyphAddress, BitVec.toNat_ofNat, Nat.zero_add]
  exact Nat.mod_eq_of_lt (show _ < 65536 by omega)

/-- Settles O48: the encodings by their rows, the sum and the glyph address as numbers. -/
theorem indexAddAndGlyph : Obligations.IndexAddAndGlyph := by
  refine ⟨encodedBy_row 29 (by decide), encodedBy_row 30 (by decide), fun x s =>
    ⟨⟨_, rfl, toNat_indexSum s x, fun r => ?_, rfl⟩, ⟨_, rfl, toNat_glyphAddress _, rfl⟩⟩⟩
  rw [State.readV_writeV, rangeFlag_eq]
  rfl

/-- Settles O49: the encoding by its row, the effect as one write. -/
theorem randomByteIsMasked : Obligations.RandomByteIsMasked :=
  ⟨encodedBy_row 21 (by decide), fun _ _ _ => registersBecome_writeV rfl, fun _ _ _ _ _ => rfl⟩

end Sys2Proof.Machine
end

section
/-! PROOF. The display instructions (44_display.md): the clear, the draw in closed form, and two draws that cancel. -/

namespace Sys2Proof.Machine

/-- Settles O50: the encoding by its row, the effect from the clear grid. -/
theorem clearSetsEveryCellToZero : Obligations.ClearSetsEveryCellToZero :=
  ⟨encodedBy_row 0 (by decide), fun _ s => ⟨s.redraw Display.clear, rfl, Display.cell_clear, rfl, rfl⟩⟩

/-! ## One draw -/

/-- A draw whose addresses are all in range raises nothing. -/
theorem exec_drw {s : State} (x y : Nibble) {n : Nibble} (h : ∀ k < n.toNat, s.dataBase + k ≤ 0xFFF) :
    exec (.drw x y n) s = .next ((s.writeV flagReg (collisionFlag (s.drawn x y n).2)).redraw (s.drawn x y n).1) := by
  have hcheck : firstFault readCheck s.dataBase n.toNat = none :=
    firstFault_eq_none.mpr fun k hk => readCheck_eq_none.mpr (h k hk)
  rw [exec, execDrw, hcheck, guarded_none]

/-- A sprite has at most 15 rows, fewer than the display, so no row of it lands on another. -/
theorem length_sprite_le (s : State) (n : Nibble) : (s.sprite n).length ≤ 32 := by
  have hn : n.toNat < 16 := n.isLt
  rw [State.sprite, Memory.length_load]
  omega

theorem drawn_cell (s : State) (x y n : Nibble) (c : Fin 64) (r : Fin 32) :
    (s.drawn x y n).1.cell c r = true ↔ ¬(s.disp.cell c r = true ↔ s.SpriteBit x y n c r) := by
  rw [State.spriteBit_iff]
  exact blit_cell s.disp _ _ (s.sprite n) (length_sprite_le s n) c r

theorem drawn_hit (s : State) (x y n : Nibble) :
    (s.drawn x y n).2 = true ↔ ∃ c r, s.SpriteBit x y n c r ∧ s.disp.cell c r = true := by
  simp only [State.spriteBit_iff]
  exact blit_hit s.disp _ _ (s.sprite n) (length_sprite_le s n)

/-- A cell changes exactly when a set sprite bit lands in it. -/
theorem drawn_cell_ne_iff (s : State) (x y n : Nibble) (c : Fin 64) (r : Fin 32) :
    (s.drawn x y n).1.cell c r ≠ s.disp.cell c r ↔ s.SpriteBit x y n c r := by
  rw [ne_eq, Bool.eq_iff_iff, drawn_cell]
  tauto

/-- VF after a draw: 1 for a collision, else 0. -/
theorem readV_flag_drawn (s : State) (hit : Bool) (d : Display) :
    ((s.writeV flagReg (collisionFlag hit)).redraw d).readV 0xF = if hit then 1 else 0 := by
  rw [State.readV_redraw]
  exact s.readV_writeV_same flagReg _

/-- Settles O51: the encoding by its row, the grid and the flag from the closed form of the blit. -/
theorem drawXorsTheSprite : Obligations.DrawXorsTheSprite := by
  refine ⟨encodedBy_row 22 (by decide), fun x y n s hrange => ?_⟩
  refine ⟨_, exec_drw x y hrange, drawn_cell_ne_iff s x y n, fun hhit => ?_, fun hmiss => ?_, fun r hr => ?_, rfl, rfl⟩
  · rw [readV_flag_drawn, if_pos ((drawn_hit s x y n).mpr hhit)]
  · rw [readV_flag_drawn, if_neg fun h => hmiss ((drawn_hit s x y n).mp h)]
  · rw [State.readV_redraw, State.readV_writeV, if_neg hr]

/-! ## Two draws -/

/-- Where a sprite lands depends on the origin, I and memory alone. -/
theorem spriteBit_congr {s t : State} {x y n : Nibble} (hx : t.readV x = s.readV x) (hy : t.readV y = s.readV y)
    (hi : t.i = s.i) (hm : t.mem = s.mem) (c : Fin 64) (r : Fin 32) : t.SpriteBit x y n c r ↔ s.SpriteBit x y n c r := by
  simp only [State.SpriteBit, State.readMem, State.dataBase, hx, hy, hi, hm]

theorem State.readV_eq_of_v_eq {s t : State} (h : t.v = s.v) (r : Nibble) : t.readV r = s.readV r := by
  simp [State.readV, h]

/-- A set bit of a byte of the sprite lands somewhere. -/
theorem exists_spriteBit_iff (s : State) (x y n : Nibble) :
    (∃ c r, s.SpriteBit x y n c r) ↔ ∃ k < n.toNat, s.readMem (s.dataBase + k) ≠ 0x00 := by
  constructor
  · rintro ⟨c, r, k, j, hk, -, hbit, -, -⟩
    refine ⟨k, hk, fun hzero => ?_⟩
    simp [hzero] at hbit
  · rintro ⟨k, hk, hne⟩
    obtain ⟨b, hb, hbit⟩ : ∃ b < 8, (s.readMem (s.dataBase + k)).getLsbD b = true := by
      by_contra hnone
      push Not at hnone
      exact hne (BitVec.eq_of_getLsbD_eq fun b hb => by simpa using hnone b hb)
    have hj : 7 - (7 - b) = b := by omega
    refine ⟨⟨((s.readV x).toNat + (7 - b)) % 64, Nat.mod_lt _ (by decide)⟩,
      ⟨((s.readV y).toNat + k) % 32, Nat.mod_lt _ (by decide)⟩,
      k, 7 - b, hk, by omega, ?_, rfl, rfl⟩
    rwa [hj]

/-- Settles O52: each cell is flipped twice or not at all, and what the second draw hits is what the first one set. -/
theorem drawingTwiceErases : Obligations.DrawingTwiceErases := by
  intro x y n s t later u hx hy hrange hfirst hv hi hm hd hsecond
  obtain rfl := Host.Outcome.next.inj ((exec_drw x y hrange).symm.trans hfirst)
  have hkeep : ∀ r, r ≠ 0xF → later.readV r = s.readV r := fun r hr => by
    rw [State.readV_eq_of_v_eq hv, State.readV_redraw, State.readV_writeV, if_neg hr]
  have hi' : later.i = s.i := hi
  have hm' : later.mem = s.mem := hm
  have hd' : later.disp = (s.drawn x y n).1 := hd
  have hbits := spriteBit_congr (n := n) (hkeep x hx) (hkeep y hy) hi' hm'
  have hrange' : ∀ k < n.toNat, later.dataBase + k ≤ 0xFFF := by rwa [State.dataBase, hi']
  obtain rfl := Host.Outcome.next.inj ((exec_drw x y hrange').symm.trans hsecond)
  refine ⟨Display.ext_cell fun c r => ?_, fun hclear => ⟨?_, ?_⟩⟩
  · rw [Bool.eq_iff_iff, State.redraw_disp, drawn_cell, hbits, hd', drawn_cell]
    tauto
  · have hmiss : ¬ (s.drawn x y n).2 = true := by
      rw [drawn_hit]
      rintro ⟨c, r, -, hset⟩
      cases (hclear c r).symm.trans hset
    rw [readV_flag_drawn, if_neg hmiss]
  · have hhit : (later.drawn x y n).2 = true ↔ ∃ k < n.toNat, s.readMem (s.dataBase + k) ≠ 0x00 := by
      rw [drawn_hit, ← exists_spriteBit_iff s x y n]
      refine exists_congr fun c => exists_congr fun r => ?_
      rw [hbits, hd', drawn_cell, hclear c r]
      simp
    rw [readV_flag_drawn, ← hhit]
    cases (later.drawn x y n).2 <;> simp

end Sys2Proof.Machine
end

section
/-! PROOF. Key skips, timer moves and the key-wait entry (45_input_timers.md). -/

namespace Sys2Proof.Machine

theorem exec_skp (x : Nibble) (s : State) : exec (.skp x) s =
    guarded (encode (.skp x)) (keyCheck (s.readV x)) s (s.skipIf (s.keyDown (s.readV x))) := rfl

theorem exec_sknp (x : Nibble) (s : State) : exec (.sknp x) s =
    guarded (encode (.sknp x)) (keyCheck (s.readV x)) s (s.skipIf (!s.keyDown (s.readV x))) := rfl

/-- Settles O53: the encodings by their rows, the two outcomes from the key check. -/
theorem keySkips : Obligations.KeySkips := by
  refine ⟨encodedBy_row 23 (by decide), encodedBy_row 24 (by decide), fun x s =>
    ⟨fun hkey => ⟨?_, ?_⟩, fun habove => ⟨?_, ?_⟩⟩⟩
  · rw [exec_skp, keyCheck_eq_none.mpr hkey, guarded_none]
    rfl
  · rw [exec_sknp, keyCheck_eq_none.mpr hkey, guarded_none, State.skipIf_not]
    rfl
  · rw [exec_skp, keyCheck_eq_some.mpr ⟨habove, rfl⟩]
    rfl
  · rw [exec_sknp, keyCheck_eq_some.mpr ⟨habove, rfl⟩]
    rfl

/-- A completed cycle's next state, from what its handler answers. -/
theorem State.ReadyToFetch.next_eq {s s' t : State} {i : Instr} (h : s.ReadyToFetch) (hstep : step s = .next s')
    (hword : decode s.nextWord = .ok i) (hexec : exec i s.entry = .next t) (ht : t.halt = none) : s' = t.endCycle :=
  Host.Outcome.next.inj (hstep.symm.trans (h.step_completes hword hexec ht))

/-- Settles O54: the encodings by their rows, each move as one write, and in a whole cycle the tick after it. -/
theorem timerMoves : Obligations.TimerMoves := by
  refine ⟨encodedBy_row 25 (by decide), encodedBy_row 27 (by decide), encodedBy_row 28 (by decide),
    fun x s => ⟨registersBecome_writeV rfl, rfl, rfl⟩, fun s s' x hstep hready => ⟨fun hword => ?_, fun hword => ?_,
      fun hword => ?_⟩⟩
  · obtain rfl := hready.next_eq hstep hword rfl hready.1
    exact ⟨s.entry.readV_writeV_same x s.dt, toNat_tick s.dt⟩
  · obtain rfl := hready.next_eq hstep hword rfl hready.1
    exact toNat_tick (s.readV x)
  · obtain rfl := hready.next_eq hstep hword rfl hready.1
    exact ⟨toNat_tick (s.readV x), decide_eq_decide.mpr (tick_pos_iff (s.readV x))⟩

/-- Settles O55: the encoding by its row, the handler's effect, and in a whole cycle the tick after it. -/
theorem keyWaitEntry : Obligations.KeyWaitEntry :=
  ⟨encodedBy_row 26 (by decide), fun _ _ => rfl, fun s _ hready hword =>
    ⟨_, hready.step_completes hword rfl hready.1, rfl, rfl, rfl, hready.1, toNat_tick s.dt, toNat_tick s.st⟩⟩

end Sys2Proof.Machine
end

section
/-! PROOF. Memory transfer (46_memory_transfer.md): the BCD store, the bulk transfers, and the first address at which a data
access faults. -/

namespace Sys2Proof.Machine

/-! ## Stores -/

/-- A byte of a store, by its place in the list. -/
theorem State.readMem_store {s : State} (hm : s.mem.wf) (base : Nat) (bs : List Byte) (k : Nat) (hk : k < bs.length) :
    (s.setMem (s.mem.store base bs)).readMem (base + k) = bs[k] := by
  have hin : base ≤ base + k ∧ base + k < base + bs.length := by omega
  simp [Memory.read_store _ _ _ _ hm.1, hin]

/-- A byte outside a store. -/
theorem State.readMem_store_of_outside {s : State} (hm : s.mem.wf) (base : Nat) (bs : List Byte) {a : Nat}
    (ha : a < base ∨ base + bs.length ≤ a) : (s.setMem (s.mem.store base bs)).readMem a = s.readMem a := by
  have hout : ¬(base ≤ a ∧ a < base + bs.length) := by omega
  exact (Memory.read_store bs a s.mem base hm.1).trans (dif_neg hout)

/-- The write checks pass when every address is in range and outside the font table. -/
theorem firstFault_writeCheck_eq_none {base n : Nat} (h : ∀ k < n, 0x050 ≤ base + k ∧ base + k ≤ 0xFFF) :
    firstFault (writeCheck fontWrite) base n = none := by
  refine firstFault_eq_none.mpr fun k hk => writeCheck_eq_none.mpr ?_
  obtain ⟨hfont, hrange⟩ := h k hk
  exact ⟨hrange, fun _ => hfont⟩

theorem lt_registerCount {x : Nibble} {k : Nat} : k < registerCount x ↔ k ≤ x.toNat := Nat.lt_succ_iff

theorem exec_ldBVx {s : State} (x : Nibble) (h : ∀ k < 3, 0x050 ≤ s.dataBase + k ∧ s.dataBase + k ≤ 0xFFF) :
    exec (.ldBVx x) s = .next (s.setMem (s.mem.store s.dataBase (bcdDigits (s.readV x)))) := by
  rw [exec, execLdBVx, firstFault_writeCheck_eq_none h, guarded_none]

theorem exec_ldMemVx {s : State} (x : Nibble) (h : ∀ k ≤ x.toNat, 0x050 ≤ s.dataBase + k ∧ s.dataBase + k ≤ 0xFFF) :
    exec (.ldMemVx x) s = .next (s.setMem (s.mem.store s.dataBase (s.registers (registerCount x)))) := by
  rw [exec, execLdMemVx, firstFault_writeCheck_eq_none fun k hk => h k (lt_registerCount.mp hk), guarded_none]

/-- A number that is at most a byte's is kept by the byte that holds it. -/
theorem toNat_ofNat_of_le (b : Byte) {n : Nat} (h : n ≤ b.toNat) : (BitVec.ofNat 8 n).toNat = n := by
  have hb : b.toNat < 256 := b.isLt
  rw [BitVec.toNat_ofNat]
  exact Nat.mod_eq_of_lt (show n < 256 by omega)

/-- Settles O56: the encoding by its row, the digits from the store, each of them below the byte they are of. -/
theorem bcdStoreWritesThreeDigits : Obligations.BcdStoreWritesThreeDigits := by
  refine ⟨encodedBy_row 31 (by decide), fun x s hm hrange => ⟨_, exec_ldBVx x hrange, rfl, ?_, ?_, ?_, fun a ha => ?_, rfl⟩⟩
  · have hread := State.readMem_store hm s.dataBase (bcdDigits (s.readV x)) 0 (Nat.zero_lt_succ 2)
    exact (congrArg BitVec.toNat hread).trans (toNat_ofNat_of_le (s.readV x) (Nat.div_le_self _ _))
  · have hread := State.readMem_store hm s.dataBase (bcdDigits (s.readV x)) 1 (Nat.one_lt_succ_succ 1)
    exact (congrArg BitVec.toNat hread).trans (toNat_ofNat_of_le (s.readV x) (by omega))
  · have hread := State.readMem_store hm s.dataBase (bcdDigits (s.readV x)) 2 (Nat.lt_succ_self 2)
    exact (congrArg BitVec.toNat hread).trans (toNat_ofNat_of_le (s.readV x) (Nat.mod_le _ _))
  · exact State.readMem_store_of_outside hm _ _ ha

/-- The list of registers, by index. -/
theorem State.getElem_registers (s : State) (n : Nat) (r : Nibble) (h : r.toNat < (s.registers n).length) :
    (s.registers n)[r.toNat] = s.readV r := by
  simp [State.registers]

/-- Settles O57: the encoding by its row, the bytes from the store. -/
theorem bulkStoreWritesTheRegisters : Obligations.BulkStoreWritesTheRegisters := by
  refine ⟨encodedBy_row 32 (by decide), fun x s hm hrange =>
    ⟨_, exec_ldMemVx x hrange, rfl, fun k hk => ?_, fun a ha => ?_, rfl⟩⟩
  · have hlen : k.toNat < (s.registers (registerCount x)).length := by
      rw [length_registers]
      exact lt_registerCount.mpr hk
    rw [State.readMem_store hm _ _ k.toNat hlen, State.getElem_registers]
  · refine State.readMem_store_of_outside hm _ _ ?_
    rw [length_registers, registerCount]
    omega

/-! ## Loads -/

theorem exec_ldVxMem {s : State} (x : Nibble) (h : ∀ k ≤ x.toNat, s.dataBase + k ≤ 0xFFF) :
    exec (.ldVxMem x) s = .next (s.loadRegisters 0 (s.mem.load s.dataBase (registerCount x))) := by
  have hcheck : firstFault readCheck s.dataBase (registerCount x) = none :=
    firstFault_eq_none.mpr fun k hk => readCheck_eq_none.mpr (h k (lt_registerCount.mp hk))
  rw [exec, execLdVxMem, hcheck, guarded_none]

/-- Settles O58: the encoding by its row, the registers from the load. -/
theorem bulkLoadReadsTheRegisters : Obligations.BulkLoadReadsTheRegisters := by
  refine ⟨encodedBy_row 33 (by decide), fun x s hrange => ⟨_, exec_ldVxMem x hrange, fun r => ?_, ?_⟩⟩
  · have hlen : (s.mem.load s.dataBase (registerCount x)).length = x.toNat + 1 := Memory.length_load ..
    have hx : x.toNat < 16 := x.isLt
    rw [State.readV_loadRegisters _ r 0 s (by omega)]
    by_cases hr : r.toNat ≤ x.toNat
    · rw [dif_pos (by omega), Memory.getElem_load]
      exact (if_pos hr).symm
    · rw [dif_neg (by omega)]
      exact (if_neg hr).symm
  · rw [State.loadRegisters_frame]

/-! ## The first bad address -/

/-- The write fault of the first address that fails the checks. -/
theorem firstFault_writeCheck_eq_some {base n k : Nat} {kind : FaultKind} (hk : k < n)
    (hbefore : ∀ j < k, 0x050 ≤ base + j ∧ base + j ≤ 0xFFF) (hbad : writeCheck fontWrite (base + k) = some kind) :
    firstFault (writeCheck fontWrite) base n = some kind := by
  refine firstFault_eq_some.mpr ⟨k, hk, hbad, fun j hj => writeCheck_eq_none.mpr ?_⟩
  obtain ⟨hfont, hrange⟩ := hbefore j hj
  exact ⟨hrange, fun _ => hfont⟩

/-- The read fault of the first address above 0xFFF. -/
theorem firstFault_readCheck_eq_some {base n k : Nat} (hk : k < n) (hbefore : ∀ j < k, base + j ≤ 0xFFF)
    (hbad : 0xFFF < base + k) : firstFault readCheck base n = some (.outOfRangeAddress .read (base + k)) :=
  firstFault_eq_some.mpr
    ⟨k, hk, readCheck_eq_some.mpr ⟨hbad, rfl⟩, fun j hj => readCheck_eq_none.mpr (hbefore j hj)⟩

/-- FX33 and FX55 raise what the check finds at the first bad address. -/
theorem exec_store_raised {s : State} {k : Nat} {kind : FaultKind}
    (hbefore : ∀ j < k, 0x050 ≤ s.dataBase + j ∧ s.dataBase + j ≤ 0xFFF)
    (hbad : writeCheck fontWrite (s.dataBase + k) = some kind) (x : Nibble) :
    (k < 3 → exec (.ldBVx x) s = .next (s.raised (encode (.ldBVx x)) kind)) ∧
      (k ≤ x.toNat → exec (.ldMemVx x) s = .next (s.raised (encode (.ldMemVx x)) kind)) := by
  refine ⟨fun hk => ?_, fun hk => ?_⟩
  · rw [exec, execLdBVx, firstFault_writeCheck_eq_some hk hbefore hbad]
    rfl
  · rw [exec, execLdMemVx, firstFault_writeCheck_eq_some (lt_registerCount.mpr hk) hbefore hbad]
    rfl

/-- Settles O59: each handler raises what its check finds at the first bad address. -/
theorem dataAccessesFaultAtTheFirstBadAddress : Obligations.DataAccessesFaultAtTheFirstBadAddress := by
  refine fun x y n s k => ⟨fun hbefore => ⟨fun habove => ?_, fun hfont => ?_⟩,
    fun hbefore habove => ⟨fun hk => ?_, fun hk => ?_⟩⟩
  · exact exec_store_raised hbefore (writeCheck_eq_some.mpr (.inl ⟨habove, rfl⟩)) x
  · exact exec_store_raised hbefore (writeCheck_eq_some.mpr (.inr ⟨hfont, rfl⟩)) x
  · rw [exec, execLdVxMem, firstFault_readCheck_eq_some (lt_registerCount.mpr hk) hbefore habove]
    rfl
  · rw [exec, execDrw, firstFault_readCheck_eq_some hk hbefore habove]
    rfl

end Sys2Proof.Machine
end

section
/-! PROOF. Start-up (70_reset_and_hazards.md section 1), the placed instruction (log 16) and the exit status
(60_exceptions.md section 5). -/

namespace Sys2Proof.Machine

/-! ## Reset and the loader -/

theorem length_font : font.length = 80 := rfl

/-- Above the font table memory reads 0 at reset. -/
theorem initial_eq_zero {a : Nat} (h : 0x050 ≤ a) : Memory.initial a = 0x00 :=
  List.getD_eq_default _ _ (by rw [length_font]; exact h)

/-- Settles O30: the font table glyph by glyph, every other field by its value. -/
theorem resetStateIsAsListed : Obligations.ResetStateIsAsListed := by
  refine ⟨fun r => ?_, rfl, rfl, rfl, fun j hj => ?_, rfl, rfl, by decide, fun a ha => initial_eq_zero ha,
    Display.cell_clear, rfl, rfl, rfl, rfl, rfl⟩
  · simp [State.readV, State.reset]
  · simp [State.reset]

/-- Settles O31: the loader's store, from an empty memory, inside the address space. -/
theorem bootLoadsTheImage : Obligations.BootLoadsTheImage := by
  intro image
  have hlen : (image.take 3584).length = min image.length 3584 := by rw [List.length_take, Nat.min_comm]
  refine ⟨fun k hk hmax => ?_, fun a ha => ?_, ?_, rfl⟩
  · have hin : k < (image.take 3584).length := by omega
    exact (State.readMem_store (s := State.reset) Memory.wf_nil 0x200 _ k hin).trans List.getElem_take
  · exact State.readMem_store_of_outside (s := State.reset) Memory.wf_nil 0x200 _ (by rwa [hlen])
  · exact Memory.wf_store _ _ _ Memory.wf_nil (by omega)

/-! ## The placed instruction -/

/-- A PC the fetch accepts is kept, and the one used instead of any other is one. -/
theorem fetchCheck_fetchablePc (pc : Word) : fetchCheck oddFetch (fetchablePc pc) = none := by
  unfold fetchablePc
  split
  · assumption
  · decide

/-- The word a table word stands for, and that its bytes are that word's. -/
theorem exists_word_of_decodeTableWord {nbits w : Nat} {i : Instr} (h : decodeTableWord nbits w = some i) :
    ∃ word : Word, tableWordBytes nbits w = [word.extractLsb' 8 8, word.extractLsb' 0 8] ∧ decode word = .ok i := by
  refine ⟨BitVec.ofNat 16 (w % 2 ^ nbits), rfl, ?_⟩
  simp only [decodeTableWord, tableWordBytes, decodeBytes, joinBytes_bytes] at h
  cases hw : decode (BitVec.ofNat 16 (w % 2 ^ nbits)) with
  | ok j => simpa [hw, Except.map] using h
  | error r => simp [hw, Except.map] at h

/-- The two bytes of a placed word are the next word the fetch reads. -/
theorem State.nextWord_placeInstruction {s : State} (hm : s.mem.wf) (word : Word) :
    (s.placeInstruction [word.extractLsb' 8 8, word.extractLsb' 0 8]).nextWord = word := by
  have hread := State.readMem_store hm (fetchablePc s.pc).toNat [word.extractLsb' 8 8, word.extractLsb' 0 8]
  have hhigh := hread 0 (Nat.zero_lt_succ 1)
  have hlow := hread 1 (Nat.lt_succ_self 1)
  calc (s.placeInstruction [word.extractLsb' 8 8, word.extractLsb' 0 8]).nextWord
      = joinBytes (word.extractLsb' 8 8) (word.extractLsb' 0 8) := congrArg₂ joinBytes hhigh hlow
    _ = word := joinBytes_bytes word

/-- Settles O10: the two bytes stand where the fetch reads, and join to the word. -/
theorem placedInstructionIsFetchedNext : Obligations.PlacedInstructionIsFetchedNext := by
  intro s nbits w i hm hdecode
  obtain ⟨word, hbytes, hword⟩ := exists_word_of_decodeTableWord hdecode
  have hready := readyToFetch_of_check (s := s.withFetchWord nbits w) rfl rfl (fetchCheck_fetchablePc s.pc)
  refine ⟨hready, ?_, rfl, fun hcheck => if_pos hcheck, fun a ha ha' => ?_⟩
  · rw [State.withFetchWord, hbytes, State.nextWord_placeInstruction hm, hword]
  · have hne : a ≠ (fetchablePc s.pc).toNat ∧ a ≠ (fetchablePc s.pc).toNat + 1 := ⟨ha, ha'⟩
    refine State.readMem_store_of_outside hm (fetchablePc s.pc).toNat (tableWordBytes nbits w) ?_
    rw [hbytes, List.length_cons, List.length_cons, List.length_nil]
    omega

/-! ## Exit status -/

theorem FaultKind.exists_code (kind : FaultKind) : ∃ k < 8, kind.code = k + 1 := by
  cases kind <;> exact ⟨_, by decide, rfl⟩

/-- Settles O33: the open parameter where it meets R262's constraint, the codes themselves where it does not. -/
theorem exitCodesAreDistinctAndNonZero : Obligations.ExitCodesAreDistinctAndNonZero := by
  refine ⟨fun kind => ?_, ?_, fun s => ?_⟩
  · obtain ⟨k, hk, hcode⟩ := kind.exists_code
    unfold exitCode
    split
    case isTrue hvalid => exact hcode ▸ hvalid.1 k hk
    case isFalse => rw [hcode]; omega
  · unfold exitCode
    split
    case isTrue hvalid => exact hvalid.2
    case isFalse => decide
  · rw [State.exitStatus, Option.isSome_map, Option.isSome_iff_ne_none, State.Faulted]

end Sys2Proof.Machine
end
